-- ==== Sys2Proof/Word.lean ====
section
/-! DEFINITION. The word and byte types. Bits are numbered from 0 at the least significant bit, and every value is
unsigned (00_scope R8, R9): a byte is never sign-extended. -/

namespace Sys2Proof

/-- A 32-bit register or command word (00_scope R7: "Register width is 32 bits"). -/
abbrev Word := BitVec 32

/-- An unsigned 8-bit byte of BUF or of the wire format (00_scope R9). -/
abbrev Byte := BitVec 8

end Sys2Proof
end

