-- ==== Sys2Proof/Syntax.lean ====
section
/-! DEFINITION. What the block executes: one constructor per row of spec/opcode_table.json. The first five are the command
words written to CTRL (30_encoding R86); the last six are the classes of the byte the decoder reads at index K
(30_encoding R87). K is state (10_state R38), not part of an instruction. -/

namespace Sys2Proof

/-- The rows of the opcode table. -/
inductive Instr where
  /-- NOP: the word 0x00000000 (40_control R106). -/
  | nop
  /-- ENCODE: the word 0x00000001 (40_control R102). -/
  | encode
  /-- DECODE: the word 0x00000002 (40_control R103). -/
  | decode
  /-- ILLEGAL_CMD3: the word 0x00000003, the reserved CMD (40_control R104). -/
  | illegalCmd3
  /-- ILLEGAL_Z: a word `w` with a nonzero bit in [31:2] (40_control R104). -/
  | illegalZ (w : Word)
  /-- CONT: at K = 0..3, a byte with continuation bit 1 and payload `p`. -/
  | cont (p : BitVec 7)
  /-- TERM: at K = 0..3, a byte with continuation bit 0 and payload `p`. -/
  | term (p : BitVec 7)
  /-- CONT5: at K = 4, a byte with continuation bit 1, whatever its payload `p`. -/
  | cont5 (p : BitVec 7)
  /-- TERM5: at K = 4, a byte 00000ppp. -/
  | term5 (p : BitVec 3)
  /-- OVR5: at K = 4, a byte with continuation bit 0 and a payload `p` above 0x07. -/
  | ovr5 (p : BitVec 7)
  /-- NOBYTE: no byte remains at index K (avail ≤ K), and none is read. -/
  | noByte
deriving DecidableEq, Repr

end Sys2Proof
end

