-- ==== Sys2Proof/WellFormed.lean ====
section
/-! DEFINITION. Which terms of `Instr` stand for an encoding of the opcode table. Only two rows put a condition on an
operand that its width does not already enforce. -/

namespace Sys2Proof

/-- The condition of each row of the opcode table: ILLEGAL_Z has w[31:2] ≠ 0 (30_encoding R88), OVR5 has p > 0x07
(30_encoding R87). -/
def Instr.wellFormed : Instr → Bool
  | .nop => true
  | .encode => true
  | .decode => true
  | .illegalCmd3 => true
  | .illegalZ w => w.extractLsb' 2 30 != 0#30
  | .cont _ => true
  | .term _ => true
  | .cont5 _ => true
  | .term5 _ => true
  | .ovr5 p => decide (7 < p.toNat)
  | .noByte => true

end Sys2Proof
end

