-- ==== Sys2Proof/Decode.lean ====
section
/-! DEFINITION. Decoding and encoding. A command is decoded from the 32-bit word written to CTRL (30_encoding R80, R86,
R88). A wire byte is decoded under K, the index of the byte being read (30_encoding R81, R87); "no byte" decodes too,
to NOBYTE. Every word and every (K, byte) pair has a meaning (R88, R89), so only an index K above 4 is rejected. -/

namespace Sys2Proof

/-- What the block is given to act on: a word written to CTRL, a byte read from BUF, or no byte. -/
inductive Encoded where
  | ctrl (w : Word)
  | wire (b : Byte)
  | nothing
deriving DecidableEq, Repr

/-- Why decoding rejects. -/
inductive DecodeError where
  /-- K is a value 0..4 (10_state R38): there is no byte at another index. Raised by `decodeAt`; safe. -/
  | noSuchByteIndex
deriving DecidableEq, Repr

/-- The command opcode map (30_encoding R86). -/
def decodeCtrl (w : Word) : Instr :=
  if w = 0x00000000#32 then .nop
  else if w = 0x00000001#32 then .encode
  else if w = 0x00000002#32 then .decode
  else if w = 0x00000003#32 then .illegalCmd3
  else .illegalZ w

/-- The payload field p = b[6:0] (30_encoding R81). -/
def payload (b : Byte) : BitVec 7 := b.extractLsb' 0 7

/-- The continuation bit c = b[7] (30_encoding R81). -/
def continues (b : Byte) : Bool := b.getLsbD 7

/-- A wire byte with continuation bit `c` and payload `p` (30_encoding R81). -/
def wireByte (c : BitVec 1) (p : BitVec 7) : Byte := c ++ p

/-- The decoder's byte-class map (30_encoding R87), for the byte `b` at index `k`. -/
def decodeByte (k : Fin 5) (b : Byte) : Instr :=
  if k.val < 4 then
    if continues b then .cont (payload b) else .term (payload b)
  else
    if continues b then .cont5 (payload b)
    else if 7 < (payload b).toNat then .ovr5 (payload b)
    else .term5 (b.extractLsb' 0 3)

/-- The whole opcode map, under the byte index `k`. -/
def decodeInstr (k : Fin 5) : Encoded → Instr
  | .ctrl w => decodeCtrl w
  | .wire b => decodeByte k b
  | .nothing => .noByte

/-- `decodeInstr` for an index that is a bare number: rejects by name what is no index of a byte. -/
def decodeAt (k : Nat) (e : Encoded) : Except DecodeError Instr :=
  if h : k < 5 then .ok (decodeInstr ⟨k, h⟩ e) else .error .noSuchByteIndex

/-- The indices K at which the opcode table has the row: any for a command word and for NOBYTE, 0..3 for CONT and TERM,
4 for CONT5, TERM5 and OVR5 (30_encoding R87). -/
def Instr.fitsAt (k : Fin 5) : Instr → Bool
  | .nop => true
  | .encode => true
  | .decode => true
  | .illegalCmd3 => true
  | .illegalZ _ => true
  | .cont _ => decide (k.val < 4)
  | .term _ => decide (k.val < 4)
  | .cont5 _ => decide (k.val = 4)
  | .term5 _ => decide (k.val = 4)
  | .ovr5 _ => decide (k.val = 4)
  | .noByte => true

/-- The encoder, from the formats of 30_encoding R80, R81, R86, R87. -/
def encodeInstr : Instr → Encoded
  | .nop => .ctrl 0x00000000#32
  | .encode => .ctrl 0x00000001#32
  | .decode => .ctrl 0x00000002#32
  | .illegalCmd3 => .ctrl 0x00000003#32
  | .illegalZ w => .ctrl w
  | .cont p => .wire (wireByte 1#1 p)
  | .term p => .wire (wireByte 0#1 p)
  | .cont5 p => .wire (wireByte 1#1 p)
  | .term5 p => .wire (wireByte 0#1 (0#4 ++ p))
  | .ovr5 p => .wire (wireByte 0#1 p)
  | .noByte => .nothing

/-- How many bits the encoded form has: the "width" of the opcode table's row. -/
def Encoded.bits : Encoded → Nat
  | .ctrl _ => 32
  | .wire _ => 8
  | .nothing => 0

/-- A row's bits as one number, `nbits` of them, laid out as log entry 13 says: 0 bits are NOBYTE; up to 16 bits are a wire
byte in bits 7..0 with its index K in bits 10..8 (zero where the table gives the row 8 bits); up to 32 are a command
word. -/
def tableForm (nbits w : Nat) : Option (Nat × Encoded) :=
  if nbits = 0 then some (0, .nothing)
  else if nbits ≤ 16 then some (w / 256 % 8, .wire (BitVec.ofNat 8 w))
  else if nbits ≤ 32 then some (0, .ctrl (BitVec.ofNat 32 w))
  else none

/-- The instruction the decoder reads from a row's bits. -/
def decodeTableWord (nbits w : Nat) : Option Instr :=
  match tableForm nbits w with
  | none => none
  | some (k, e) =>
    match decodeAt k e with
    | .ok i => some i
    | .error _ => none

end Sys2Proof
end

