-- ==== Sys2Proof/Config.lean ====
section
/-! DEFINITION. The parameters of the model that the platform fixes (00_scope R7): AW and MEM_ADMIT, shared by all
instances because BUF is shared. BASE is kept with each instance, N_INST is how many instances there are.
They are plain data that State carries and no step changes, so a statement over every state is a statement over every
value of every parameter, and a run can still be evaluated (log entry 3). -/

namespace Sys2Proof

/-- A run of BUF addresses: `base`, `base + 1`, ..., `size` of them. -/
structure Region where
  base : Nat
  size : Nat
deriving DecidableEq, Repr

/-- The platform's parameters. `aw` is AW (92 D3: 1 to 32, default 32). `served` gives MEM_ADMIT (92 D31) as a list of
regions: an address is served when some region holds it. BUF is finite, so every predicate on its addresses has
such a list. -/
structure Platform where
  aw : Nat
  served : List Region
deriving DecidableEq, Repr

/-- AW = 32, the default of 00_scope R7, with every address served. DESIGN CHOICE for MEM_ADMIT (log entry 3), unsafe. -/
def Platform.default : Platform :=
  { aw := 32, served := [{ base := 0, size := 4294967296 }] }

end Sys2Proof
end

