-- ==== Sys2Proof/Machine/State.lean ====
section
/-! DEFINITION. The machine's state, as plain data: the registers and internal fields of every instance (10_state R20), BUF
(20_memory R60), the platform's parameters (00_scope R7), and the environment's events still to come (log entry 1). -/

namespace Sys2Proof.Machine

/-- BUF as a list of (address, byte) pairs, addresses strictly rising, no entry equal to what an unlisted address reads
as. -/
abbrev Memory := List Host.Cell

/-- OP (10_state R37). -/
inductive Op where
  | idle
  | enc
  | dec
deriving DecidableEq, Repr

/-- The outcomes STATUS.ERR can give (10_state R25); codes 5-7 are never produced. -/
inductive ErrKind where
  | ok
  | truncated
  | malformed
  | outOfRange
  | illegalCmd
deriving DecidableEq, Repr

/-- The fields of STATUS (10_state R23-R26). Its other bits are reserved and read 0 (R27). -/
structure Status where
  busy : Bool
  done : Bool
  err : ErrKind
  ign : Bool
deriving DecidableEq, Repr

/-- One instance of the block: its ten window registers, without the bits the spec says read 0, its internal fields OP, K
and ACC (10_state R20-R39), and its parameter BASE. CTRL holds no state (R22). -/
structure Inst where
  /-- BASE, the byte address of the register window: a parameter (00_scope R7). -/
  base : Nat
  status : Status
  encIn : Word
  encOut0 : Word
  encOut1 : Byte
  encLen : BitVec 3
  /-- An AW-bit address: kept below 2^AW by every write (R32). -/
  decPos : Word
  /-- An AW-bit address: kept below 2^AW by every write (R33). -/
  decLimit : Word
  decValue : BitVec 31
  decCount : BitVec 3
  op : Op
  k : Fin 5
  acc : BitVec 35
deriving DecidableEq, Repr

/-- One step of an agent outside or inside the block, as the environment schedules it (00_scope R5, R11). -/
inductive Event where
  /-- A host write of `size` bytes at `addr` of the host's address space (20_memory R61). -/
  | busWrite (addr size : Nat) (data : Word)
  /-- A host read of `size` bytes at `addr` of the host's address space (20_memory R61). -/
  | busRead (addr size : Nat)
  /-- A host byte write of BUF, MemWrite(addr, 1, b) (20_memory R60). -/
  | bufWrite (addr : Nat) (b : Byte)
  /-- A host byte read of BUF (20_memory R60). -/
  | bufRead (addr : Nat)
  /-- A turn of the engine of instance `n` (40_control R109). -/
  | engine (n : Nat)
  /-- A reset of instance `n` (70_reset R190). -/
  | reset (n : Nat)
deriving DecidableEq, Repr

/-- The whole machine. -/
structure State where
  /-- The platform's parameters; no step changes them. -/
  plat : Platform
  /-- The buffer space, which the host owns and all instances read (20_memory R60, R79). -/
  buf : Memory
  /-- Instance 0. -/
  inst : Inst
  /-- Instances 1, 2, ... (60_exceptions R183). -/
  peers : List Inst
  /-- The events still to come, first one first: the model's own field (log entry 1). -/
  input : List Event
  /-- The data of the host's last read: the model's own field, read by nothing in the block (log entry 5). -/
  rdata : Word
deriving DecidableEq, Repr

/-- Why the machine stops. A fault is recorded for good (60_exceptions R174). -/
inductive Fault where
  /-- A register-window access that is not an aligned 32-bit read or write (60_exceptions R176.1). Raised by a host bus
  access; safe: the platform might complete the access. -/
  | badBusAccess
  /-- A host BUF write into [DEC_POS, DEC_LIMIT) of an instance with OP = DEC (60_exceptions R176.2). Raised by a host BUF
  write; safe. -/
  | bufWriteInUse
  /-- A host BUF access at an address outside 0 .. 2^AW - 1, which does not exist (20_memory R60). Raised by a host BUF
  read or write; safe. -/
  | noSuchBufAddress
deriving DecidableEq, Repr

/-- Why an instruction has no meaning. -/
inductive Refusal where
  /-- The instruction with this mnemonic has no meaning yet. Raised by `exec` only; safe. -/
  | notModelled (mnemonic : String)
  /-- A decoder byte class executed where the engine has no such step (log entry 11): OP is not DEC, or K is no index at which the
  opcode table has the class (42_decoder R143's precondition, 30_encoding R87). Raised by the meanings of the six byte
  classes; safe. No step of the machine raises it, because the decoder classifies a byte under its own K. -/
  | noEngineStep
deriving DecidableEq, Repr

/-- An instance right after reset, with its window at `base` (10_state R45). -/
def Inst.reset (base : Nat) : Inst :=
  { base := base
    status := { busy := false, done := false, err := .ok, ign := false }
    encIn := 0#32
    encOut0 := 0#32
    encOut1 := 0#8
    encLen := 0#3
    decPos := 0#32
    decLimit := 0#32
    decValue := 0#31
    decCount := 0#3
    op := .idle
    k := 0
    acc := 0#35 }

/-- The machine right after reset: one instance (N_INST's default, 00_scope R7), every register as 10_state R45 says, BUF
with nothing listed, no event waiting. BASE = 0, the served addresses, `input` and `rdata` are DESIGN CHOICEs (log
entries 1, 3, 4, 5). -/
def State.reset : State :=
  { plat := Platform.default
    buf := []
    inst := Inst.reset 0
    peers := []
    input := []
    rdata := 0#32 }

/-- What a step or a meaning answers. -/
abbrev Result := Host.Outcome State Fault Refusal

end Sys2Proof.Machine
end

