-- ==== Sys2Proof/Machine/Flags.lean ====
section
/-! DEFINITION. STATUS: its codes, its word, and every way the spec has of writing it (10_state R23-R27, R41). -/

namespace Sys2Proof.Machine

/-- The ERR codes (10_state R25). -/
def ErrKind.code : ErrKind → BitVec 3
  | .ok => 0#3
  | .truncated => 1#3
  | .malformed => 2#3
  | .outOfRange => 3#3
  | .illegalCmd => 4#3

/-- STATUS as a word: 26 zeros, IGN, ERR[2:0], DONE, BUSY (10_state R27). -/
def Status.word (st : Status) : Word :=
  0#26 ++ BitVec.ofBool st.ign ++ st.err.code ++ BitVec.ofBool st.done ++ BitVec.ofBool st.busy

/-- Acceptance of ENCODE or DECODE: BUSY = 1, DONE = 0, ERR = 0, IGN = 0 (40_control R102, R103). -/
def Status.accepted : Status :=
  { busy := true, done := false, err := .ok, ign := false }

/-- Completion: ERR = code, DONE = 1, BUSY = 0; IGN stays (60_exceptions R171). -/
def Status.finished (e : ErrKind) (st : Status) : Status :=
  { busy := false, done := true, err := e, ign := st.ign }

/-- An ILLEGAL word while BUSY = 0: IGN = 0, ERR = 4, DONE = 1; BUSY stays (40_control R104). -/
def Status.illegal (st : Status) : Status :=
  { busy := st.busy, done := true, err := .illegalCmd, ign := false }

/-- An ignored write: IGN = 1 (40_control R105). -/
def Status.ignored (st : Status) : Status :=
  { busy := st.busy, done := st.done, err := st.err, ign := true }

end Sys2Proof.Machine
end

