-- ==== Sys2Proof/Machine/Ops.lean ====
section
/-! DEFINITION. The named operations every meaning is written from: BUF, the platform's parameters, acceptance and
completion of a command, the decoder's accumulator, and reaching one instance among several.
Completion (`Inst.complete`, 60_exceptions R171) is this block's form of taking an exception; there is no return from
one (R179). -/

namespace Sys2Proof.Machine

/-! ### BUF -/

/-- What an address of BUF that nothing has written reads as. DESIGN CHOICE (log entry 4), unsafe for runs from reset. -/
def Memory.unlisted : Byte := 0x00#8

/-- The byte at address `a`: the most recent write there, or the initial contents (20_memory R71). -/
def Memory.read : Memory → Nat → Byte
  | [], _ => Memory.unlisted
  | c :: m, a => if a = c.1 then c.2 else Memory.read m a

/-- `m` with byte `b` at address `a`, in canonical form. -/
def Memory.write : Memory → Nat → Byte → Memory
  | [], a, b => if b = Memory.unlisted then [] else [(a, b)]
  | c :: m, a, b =>
    if a < c.1 then
      if b = Memory.unlisted then c :: m else (a, b) :: c :: m
    else if a = c.1 then
      if b = Memory.unlisted then m else (a, b) :: m
    else c :: Memory.write m a b

/-- The canonical form of a list whose addresses are all `lo` or above. -/
def Memory.wfFrom : Nat → Memory → Bool
  | _, [] => true
  | lo, c :: m => decide (lo ≤ c.1) && (c.2 != Memory.unlisted) && Memory.wfFrom (c.1 + 1) m

/-- The canonical form: addresses strictly rising, no entry equal to what an unlisted address reads as. -/
def Memory.wf (m : Memory) : Bool := Memory.wfFrom 0 m

/-- Every listed address is below `n`. -/
def Memory.below (n : Nat) : Memory → Bool
  | [] => true
  | c :: m => decide (c.1 < n) && Memory.below n m

/-! ### The platform's parameters -/

def regionHolds (r : Region) (a : Nat) : Bool := decide (r.base ≤ a) && decide (a < r.base + r.size)

/-- MEM_ADMIT: the platform serves address `a` (92 D31). -/
def admits (p : Platform) (a : Nat) : Bool := p.served.any fun r => regionHolds r a

/-- How many addresses BUF has: 2^AW (20_memory R60). -/
def bufSize (p : Platform) : Nat := 2 ^ p.aw

/-- zext_32(w[AW-1:0]) (40_control R107). -/
def truncAw (p : Platform) (w : Word) : Word := BitVec.ofNat 32 (w.toNat % bufSize p)

/-! ### Commands -/

/-- Acceptance of ENCODE (40_control R102). -/
def Inst.acceptEncode (i : Inst) : Inst :=
  { i with status := Status.accepted, encOut0 := 0#32, encOut1 := 0#8, encLen := 0#3, op := .enc }

/-- Acceptance of DECODE (40_control R103). -/
def Inst.acceptDecode (i : Inst) : Inst :=
  { i with status := Status.accepted, decValue := 0#31, decCount := 0#3, acc := 0#35, k := 0, op := .dec }

/-- An ILLEGAL word completes in the write step and changes STATUS alone (40_control R104). -/
def Inst.acceptIllegal (i : Inst) : Inst :=
  { i with status := i.status.illegal }

/-- A register write while BUSY = 1 (40_control R105). -/
def Inst.ignoredWrite (i : Inst) : Inst :=
  { i with status := i.status.ignored }

/-- Completion, the same for `complete OK` and `raise KIND` (60_exceptions R171). -/
def Inst.complete (e : ErrKind) (i : Inst) : Inst :=
  { i with status := i.status.finished e, op := .idle, k := 0, acc := 0#35 }

/-! ### The decoder's registers -/

/-- ACC | (zext_35(p) << 7K) (42_decoder R143, 10_state R39). -/
def Inst.accWith (p : BitVec 7) (i : Inst) : BitVec 35 :=
  i.acc ||| (p.setWidth 35 <<< (7 * i.k.val))

/-- ReadingByte(K + 1): the payload joins ACC and K advances by 1 (42_decoder R143). -/
def Inst.continueWith (p : BitVec 7) (i : Inst) : Inst :=
  { i with acc := i.accWith p, k := i.k + 1 }

/-- A failed DECODE: DEC_COUNT is written and `e` is raised; DEC_VALUE and DEC_POS stay (42_decoder R143). -/
def Inst.failDecode (e : ErrKind) (count : Nat) (i : Inst) : Inst :=
  Inst.complete e { i with decCount := BitVec.ofNat 3 count }

/-- A successful DECODE with terminating payload `p`: DEC_VALUE = ACC[30:0], DEC_COUNT = K + 1, DEC_POS advances by K + 1
as an AW-bit number (42_decoder R143). -/
def Inst.succeedDecode (pl : Platform) (p : BitVec 7) (i : Inst) : Inst :=
  Inst.complete .ok
    { i with
      decValue := (i.accWith p).setWidth 31
      decCount := BitVec.ofNat 3 (i.k.val + 1)
      decPos := truncAw pl (i.decPos + BitVec.ofNat 32 (i.k.val + 1)) }

/-! ### The machine -/

def State.setInst (i : Inst) (s : State) : State := { s with inst := i }

/-- A command's meaning: while BUSY = 1 its CTRL write is an ignored write, else `f` (40_control R100). -/
def onCommand (f : Inst → Inst) (s : State) : Result :=
  .next (s.setInst (if s.inst.status.busy then s.inst.ignoredWrite else f s.inst))

/-- A byte class's meaning: `f` where the engine has that step, that is with OP = DEC and an index K the class is found
at; refused by name elsewhere (42_decoder R143's precondition, 30_encoding R87). -/
def onDecoder (at_ : Fin 5 → Bool) (f : Inst → Inst) (s : State) : Result :=
  if s.inst.op = .dec ∧ at_ s.inst.k = true then .next (s.setInst (f s.inst)) else .refused .noEngineStep

/-- N_INST (00_scope R7). -/
def State.numInst (s : State) : Nat := s.peers.length + 1

/-- All instances, instance 0 first. -/
def State.insts (s : State) : List Inst := s.inst :: s.peers

/-- Instance `n`, if there is one. -/
def State.instAt (s : State) (n : Nat) : Option Inst := s.insts[n]?

/-- Exchanges instances 0 and `n`, so that what is written for instance 0 serves every instance. It undoes itself. -/
def State.focus (n : Nat) (s : State) : State :=
  match n with
  | 0 => s
  | m + 1 =>
    match s.peers[m]? with
    | some i => { s with inst := i, peers := s.peers.set m s.inst }
    | none => s

/-- Applies `f` to the next state, if there is one. -/
def onNext (f : State → State) : Result → Result
  | .next s => .next (f s)
  | .fault r => .fault r
  | .refused r => .refused r

/-- Runs `f` on instance `n`. Where there is no instance `n` nothing happens (log entry 19). -/
def atInst (n : Nat) (f : State → Result) (s : State) : Result :=
  if n < s.numInst then onNext (State.focus n) (f (s.focus n)) else .next s

end Sys2Proof.Machine
end

