-- ==== Sys2Proof/Machine/Operands.lean ====
section
/-! DEFINITION. What the operations read: the register window by offset (10_state R21), what is left of the buffer
(42_decoder R140), and the decoder's byte at index K (20_memory R63). -/

namespace Sys2Proof.Machine

/-- The registers of the window (10_state R21). -/
inductive Reg where
  | ctrl
  | status
  | encIn
  | encOut0
  | encOut1
  | encLen
  | decPos
  | decLimit
  | decValue
  | decCount
  /-- Any other offset of the window: reserved, RAZ/WI (10_state R36). -/
  | reserved
deriving DecidableEq, Repr

/-- The register at an offset of the window (10_state R21, R36). -/
def regAt (offset : Nat) : Reg :=
  if offset = 0x00 then .ctrl
  else if offset = 0x04 then .status
  else if offset = 0x08 then .encIn
  else if offset = 0x0C then .encOut0
  else if offset = 0x10 then .encOut1
  else if offset = 0x14 then .encLen
  else if offset = 0x18 then .decPos
  else if offset = 0x1C then .decLimit
  else if offset = 0x20 then .decValue
  else if offset = 0x24 then .decCount
  else .reserved

/-- What a host read of a register returns (40_control R108). -/
def Inst.readReg (i : Inst) : Reg → Word
  | .ctrl => 0#32
  | .status => i.status.word
  | .encIn => i.encIn
  | .encOut0 => i.encOut0
  | .encOut1 => i.encOut1.setWidth 32
  | .encLen => i.encLen.setWidth 32
  | .decPos => i.decPos
  | .decLimit => i.decLimit
  | .decValue => i.decValue.setWidth 32
  | .decCount => i.decCount.setWidth 32
  | .reserved => 0#32

/-- A host write to a register other than CTRL while BUSY = 0 (40_control R107). CTRL holds no state (10_state R22): what a
CTRL write does is its command's meaning. -/
def Inst.storeReg (pl : Platform) (w : Word) (i : Inst) : Reg → Inst
  | .ctrl => i
  | .status => i
  | .encIn => { i with encIn := w }
  | .encOut0 => i
  | .encOut1 => i
  | .encLen => i
  | .decPos => { i with decPos := truncAw pl w }
  | .decLimit => { i with decLimit := truncAw pl w }
  | .decValue => i
  | .decCount => i
  | .reserved => i

/-- A host write to a register other than CTRL: ignored while BUSY = 1 (40_control R105, R107). -/
def Inst.writeReg (pl : Platform) (r : Reg) (w : Word) (i : Inst) : Inst :=
  if i.status.busy then i.ignoredWrite else i.storeReg pl w r

/-- The number of bytes from DEC_POS up to DEC_LIMIT, 0 if the limit is below (42_decoder R140). -/
def Inst.avail (i : Inst) : Nat :=
  if i.decPos.toNat ≤ i.decLimit.toNat then i.decLimit.toNat - i.decPos.toNat else 0

/-- The address of the byte at index K: DEC_POS + K as an AW-bit number (20_memory R70). -/
def State.byteAddr (s : State) : Nat := (s.inst.decPos.toNat + s.inst.k.val) % bufSize s.plat

/-- What the decoder gets at index K: no byte where none remains, else the byte at DEC_POS + K; nothing at all where the
platform does not serve that address, and the engine is stuck (42_decoder R143, 60_exceptions R177). -/
def State.nextByte (s : State) : Option Encoded :=
  if s.inst.avail ≤ s.inst.k.val then some .nothing
  else if admits s.plat s.byteAddr then some (.wire (s.buf.read s.byteAddr))
  else none

/-- The decoder's next instruction: its byte, classified under K (30_encoding R87). `none` where the engine is stuck. -/
def State.fetch (s : State) : Option Instr := s.nextByte.map (decodeInstr s.inst.k)

/-- The address is one a running DECODE of this instance may read: [DEC_POS, DEC_LIMIT) while OP = DEC
(60_exceptions R176.2). -/
def Inst.usesAddr (a : Nat) (i : Inst) : Bool :=
  decide (i.op = .dec) && decide (i.decPos.toNat ≤ a) && decide (a < i.decLimit.toNat)

/-- The window's size in bytes (10_state R21). -/
def windowSize : Nat := 0x100

/-- The access of `size` bytes at `addr` reaches a byte of the instance's window (20_memory R61). -/
def Inst.touched (addr size : Nat) (i : Inst) : Bool :=
  decide (0 < size) && decide (addr < i.base + windowSize) && decide (i.base < addr + size)

/-- The access is an aligned 32-bit word of the window (20_memory R61). -/
def Inst.aligned (addr size : Nat) (i : Inst) : Bool :=
  decide (size = 4) && decide (i.base ≤ addr) && decide ((addr - i.base) % 4 = 0)

/-- The instance whose window the access reaches, if any: the first one (log entry 14). -/
def State.target (addr size : Nat) (s : State) : Option Nat :=
  s.insts.findIdx? fun i => i.touched addr size

end Sys2Proof.Machine
end

