-- ==== Sys2Proof/Machine/Codec.lean ====
section
/-! DEFINITION. The two functions of the source, as the spec writes them: `enc` (41_encoder R121), which the ENCODE engine
step calls, and `dec` (42_decoder R141), which the DECODE engine steps are held against. -/

namespace Sys2Proof.Machine

/-- The encoder's loop, at most `fuel` times, on the remaining value `r` (41_encoder R121). -/
def encLoop : Nat → BitVec 31 → List Byte
  | 0, _ => []
  | fuel + 1, r =>
    let g := r.extractLsb' 0 7
    let rest := r >>> 7
    if rest = 0#31 then [wireByte 0#1 g] else wireByte 1#1 g :: encLoop fuel rest

/-- enc(v): the byte sequence of a value in the domain (41_encoder R121). Five rounds are enough for 31 bits. -/
def enc (v : BitVec 31) : List Byte := encLoop 5 v

/-- n(v), the length class of a value (30_encoding R83). -/
def encLength (v : BitVec 31) : Nat :=
  if v.toNat < 2 ^ 7 then 1
  else if v.toNat < 2 ^ 14 then 2
  else if v.toNat < 2 ^ 21 then 3
  else if v.toNat < 2 ^ 28 then 4
  else 5

/-- How a decode ends, with the number of bytes read (42_decoder R141). -/
inductive DecodeOutcome where
  | ok (value : BitVec 31) (count : Nat)
  | truncated (count : Nat)
  | malformed (count : Nat)
  | outOfRange (count : Nat)
deriving DecidableEq, Repr

/-- The rounds k, k + 1, ... of the pure decoder, `fuel` of them (42_decoder R141). -/
def decLoop (b : Memory) (pos avail : Nat) : Nat → Nat → BitVec 35 → DecodeOutcome
  | 0, _, _ => .malformed 5
  | fuel + 1, k, acc =>
    if avail ≤ k then .truncated k
    else
      let x := b.read (pos + k)
      let acc' := acc ||| ((payload x).setWidth 35 <<< (7 * k))
      if continues x then decLoop b pos avail fuel (k + 1) acc'
      else if k = 4 ∧ 7 < (payload x).toNat then .outOfRange 5
      else .ok (acc'.setWidth 31) (k + 1)

/-- dec(B, pos, avail) (42_decoder R141). -/
def dec (b : Memory) (pos avail : Nat) : DecodeOutcome := decLoop b pos avail 5 0 0#35

end Sys2Proof.Machine
end

