-- ==== Sys2Proof/Machine/Command.lean ====
section
/-! DEFINITION. The five command words written to CTRL (40_control R100-R106). Each is the whole CTRL write step, BUSY or
not; the engine steps an accepted ENCODE or DECODE leads to are in Machine/Engine.lean and Machine/Wire.lean. -/

namespace Sys2Proof.Machine

/-- NOP changes nothing (40_control R106). -/
def execNop (s : State) : Result := onCommand (fun i => i) s

/-- ENCODE is accepted (40_control R102). -/
def execEncode (s : State) : Result := onCommand Inst.acceptEncode s

/-- DECODE is accepted (40_control R103). -/
def execDecode (s : State) : Result := onCommand Inst.acceptDecode s

/-- The reserved CMD = 3 completes with ILLEGAL_CMD (40_control R104). -/
def execIllegalCmd3 (s : State) : Result := onCommand Inst.acceptIllegal s

/-- A word with a nonzero Z field completes with ILLEGAL_CMD, whatever the word (40_control R104). -/
def execIllegalZ (_w : Word) (s : State) : Result := onCommand (fun i => i.acceptIllegal) s

end Sys2Proof.Machine
end

