-- ==== Sys2Proof/Machine/Wire.lean ====
section
/-! DEFINITION. The decoder's engine step, one definition per class of the byte it reads (30_encoding R87,
42_decoder R143). -/

namespace Sys2Proof.Machine

/-- K = 0..3, where CONT and TERM are found. -/
def earlyIndex (k : Fin 5) : Bool := decide (k.val < 4)

/-- K = 4, where CONT5, TERM5 and OVR5 are found. -/
def lastIndex (k : Fin 5) : Bool := decide (k.val = 4)

/-- NOBYTE is found at every index. -/
def anyIndex (_k : Fin 5) : Bool := true

/-- CONT: go to ReadingByte(K + 1). -/
def execCont (p : BitVec 7) (s : State) : Result := onDecoder earlyIndex (Inst.continueWith p) s

/-- TERM: Done with K + 1 bytes. -/
def execTerm (p : BitVec 7) (s : State) : Result := onDecoder earlyIndex (Inst.succeedDecode s.plat p) s

/-- CONT5: Failed(Malformed) with 5 bytes; the payload is lost when completion clears ACC. -/
def execCont5 (_p : BitVec 7) (s : State) : Result := onDecoder lastIndex (Inst.failDecode .malformed 5) s

/-- TERM5: Done with 5 bytes. -/
def execTerm5 (p : BitVec 3) (s : State) : Result :=
  onDecoder lastIndex (Inst.succeedDecode s.plat (p.setWidth 7)) s

/-- OVR5: Failed(OutOfRange) with 5 bytes; the payload is lost when completion clears ACC. -/
def execOvr5 (_p : BitVec 7) (s : State) : Result := onDecoder lastIndex (Inst.failDecode .outOfRange 5) s

/-- NOBYTE: Failed(Truncated) with K bytes. -/
def execNoByte (s : State) : Result :=
  onDecoder anyIndex (Inst.failDecode .truncated s.inst.k.val) s

end Sys2Proof.Machine
end

