-- ==== Sys2Proof/Machine/Dispatch.lean ====
section
/-! DEFINITION. Which meaning each instruction has. -/

namespace Sys2Proof.Machine

def exec (i : Instr) (s : State) : Host.Outcome State Fault Refusal :=
  match i with
  | .nop => Sys2Proof.Machine.execNop s
  | .encode => Sys2Proof.Machine.execEncode s
  | .decode => Sys2Proof.Machine.execDecode s
  | .illegalCmd3 => Sys2Proof.Machine.execIllegalCmd3 s
  | .illegalZ w => Sys2Proof.Machine.execIllegalZ w s
  | .cont p => Sys2Proof.Machine.execCont p s
  | .term p => Sys2Proof.Machine.execTerm p s
  | .cont5 p => Sys2Proof.Machine.execCont5 p s
  | .term5 p => Sys2Proof.Machine.execTerm5 p s
  | .ovr5 p => Sys2Proof.Machine.execOvr5 p s
  | .noByte => Sys2Proof.Machine.execNoByte s

end Sys2Proof.Machine
end

