-- ==== Sys2Proof/Machine/Engine.lean ====
section
/-! DEFINITION. The ENGINE agent of an instance (40_control R109): the encoder step (41_encoder R122), the decoder step
(42_decoder R143: read the byte at index K, classify it, execute its class), and no step at all (R109,
60_exceptions R177). -/

namespace Sys2Proof.Machine

/-- ENC_OUT0 from the encoded bytes: byte i at bits [8i+7:8i], 0 past the end (41_encoder R122). -/
def packOut0 (bytes : List Byte) : Word :=
  bytes.getD 3 0x00#8 ++ bytes.getD 2 0x00#8 ++ bytes.getD 1 0x00#8 ++ bytes.getD 0 0x00#8

/-- ENC_OUT1 from the encoded bytes: byte 4, or 0 (41_encoder R122). -/
def packOut1 (bytes : List Byte) : Byte := bytes.getD 4 0x00#8

/-- The ENCODE engine step (41_encoder R122). -/
def Inst.encoderStep (i : Inst) : Inst :=
  if i.encIn.getLsbD 31 then i.complete .outOfRange
  else
    Inst.complete .ok
      { i with
        encOut0 := packOut0 (enc (i.encIn.setWidth 31))
        encOut1 := packOut1 (enc (i.encIn.setWidth 31))
        encLen := BitVec.ofNat 3 (enc (i.encIn.setWidth 31)).length }

/-- A turn of instance 0's engine: the step it has, or nothing where it has none. -/
def engineTurn (s : State) : Result :=
  if s.inst.status.busy then
    match s.inst.op with
    | .idle => .next s
    | .enc => .next (s.setInst s.inst.encoderStep)
    | .dec =>
      match s.fetch with
      | some i => exec i s
      | none => .next s
  else .next s

/-- Instance 0's engine has an enabled step (40_control R109, 60_exceptions R177). -/
def State.engineReady (s : State) : Bool :=
  s.inst.status.busy &&
    match s.inst.op with
    | .idle => false
    | .enc => true
    | .dec => s.fetch.isSome

/-- The first instance whose engine has an enabled step. -/
def State.firstReady (s : State) : Option Nat :=
  (List.range s.numInst).find? fun n => (s.focus n).engineReady

/-- With no event waiting, the first engine that has a step takes it; where none has, the machine stays as it is
(70_reset R199, log entry 2). -/
def idleTurn (s : State) : Result :=
  match s.firstReady with
  | some n => atInst n engineTurn s
  | none => .next s

end Sys2Proof.Machine
end

