-- ==== Sys2Proof/Machine/Bus.lean ====
section
/-! DEFINITION. What the outside does to the block: host accesses to a register window (20_memory R61, R62,
40_control R100-R108), host accesses to BUF (20_memory R60, R71, R73), and reset (70_reset R190, R191). -/

namespace Sys2Proof.Machine

/-- A host write of `w` at an offset of instance 0's window: a CTRL write executes its command, every other write is a
register write (40_control R100, R107). -/
def hostWrite (offset : Nat) (w : Word) (s : State) : Result :=
  if regAt offset = .ctrl then exec (decodeCtrl w) s
  else .next (s.setInst (s.inst.writeReg s.plat (regAt offset) w))

/-- A host read at an offset of instance 0's window: the block does not change (20_memory R62, 40_control R108). -/
def hostRead (offset : Nat) (s : State) : Result :=
  .next { s with rdata := s.inst.readReg (regAt offset) }

/-- Carries out `f offset` if the access to instance 0's window is an aligned 32-bit word, and faults if not
(60_exceptions R176.1). -/
def windowAccess (addr size : Nat) (f : Nat → State → Result) (s : State) : Result :=
  if s.inst.aligned addr size then f (addr - s.inst.base) s else .fault .badBusAccess

/-- A host access: carried out on the instance whose window it reaches; an access that reaches no window is not the
block's, and nothing happens (log entry 14). -/
def busAccess (addr size : Nat) (f : Nat → State → Result) (s : State) : Result :=
  match s.target addr size with
  | some n => atInst n (windowAccess addr size f) s
  | none => .next s

/-- A host byte write of BUF (20_memory R60, R73). -/
def hostBufWrite (a : Nat) (b : Byte) (s : State) : Result :=
  if bufSize s.plat ≤ a then .fault .noSuchBufAddress
  else if s.insts.any (Inst.usesAddr a) then .fault .bufWriteInUse
  else .next { s with buf := s.buf.write a b }

/-- A host byte read of BUF (20_memory R60, R71). -/
def hostBufRead (a : Nat) (s : State) : Result :=
  if bufSize s.plat ≤ a then .fault .noSuchBufAddress
  else .next { s with rdata := (s.buf.read a).setWidth 32 }

/-- Reset of instance 0: every register and internal field at its reset value, BUF unchanged (70_reset R190). -/
def resetInst (s : State) : Result :=
  .next (s.setInst (Inst.reset s.inst.base))

/-- One event. -/
def perform : Event → State → Result
  | .busWrite addr size w, s => busAccess addr size (fun offset => hostWrite offset w) s
  | .busRead addr size, s => busAccess addr size hostRead s
  | .bufWrite a b, s => hostBufWrite a b s
  | .bufRead a, s => hostBufRead a s
  | .engine n, s => atInst n engineTurn s
  | .reset n, s => atInst n resetInst s

/-! ### Placing an instruction where the next step runs it (log entry 13) -/

/-- The next event is the host's write of the command word `w` to instance 0's CTRL. -/
def State.placeCommand (w : Word) (s : State) : State :=
  { s with input := .busWrite s.inst.base 4 w :: s.input }

/-- Parameters under which address `k` exists and is served. -/
def platformServing (k : Nat) (p : Platform) : Platform :=
  { aw := if p.aw < 3 then 3 else p.aw
    served := if admits p k then p.served else { base := k, size := 1 } :: p.served }

/-- Instance 0's decoder is at index `k` of a DECODE whose buffer starts at address 0, and its next turn comes now. -/
def State.placeDecode (k : Fin 5) (limit : Nat) (s : State) : State :=
  { s with
    plat := platformServing k.val s.plat
    inst :=
      { s.inst with
        status := Status.accepted
        decPos := 0#32
        decLimit := BitVec.ofNat 32 limit
        decValue := 0#31
        decCount := 0#3
        op := .dec
        k := k
        acc := 0#35 }
    input := .engine 0 :: s.input }

/-- The encoded form `e`, at byte index `k`, is what the next step fetches. -/
def State.place (k : Fin 5) (e : Encoded) (s : State) : State :=
  match e with
  | .ctrl w => s.placeCommand w
  | .wire b => { s.placeDecode k (k.val + 1) with buf := s.buf.write k.val b }
  | .nothing => s.placeDecode k 0

end Sys2Proof.Machine
end

