-- ==== Sys2Proof/Machine/Step.lean ====
section
/-! DEFINITION. One step of the machine: the next event of the environment, or, where none is waiting, an engine's own
step. -/

namespace Sys2Proof.Machine

/-- One step. -/
def step (s : State) : Host.Outcome State Fault Refusal :=
  match s.input with
  | [] => idleTurn s
  | ev :: rest => perform ev { s with input := rest }

/-- `s` with the opcode-table row's bits placed where the next step fetches them: a command as the host's next CTRL
write, a byte class as the next byte of a DECODE (log entry 13). Bits that are no row's leave `s` as it is. -/
def State.withFetchWord (s : State) (nbits w : Nat) : State :=
  match tableForm nbits w with
  | none => s
  | some (k, e) => if h : k < 5 then s.place ⟨k, h⟩ e else s

end Sys2Proof.Machine
end

