-- ==== Sys2Proof/Machine/HostProgram.lean ====
section
/-! DEFINITION. The host-program notation (30_encoding R92-R95): its lines, the expansion of the pseudo-operations, what the host
does line by line, `poll` with its loop test among it, and the host agent that carries it out while the other agents
move in between (00_scope R5), the schedules under which an engine is weakly fair (70_reset R199) and the end of a run
(60_exceptions R175). How often a poll reads STATUS is no part of a program: it follows from the interleaving
(log entry 20). -/

namespace Sys2Proof.Machine

/-- The offset of a named register (30_encoding R92). A reserved offset has no name; 0x28 stands for them. -/
def regOffset : Reg → Nat
  | .ctrl => 0x00
  | .status => 0x04
  | .encIn => 0x08
  | .encOut0 => 0x0C
  | .encOut1 => 0x10
  | .encLen => 0x14
  | .decPos => 0x18
  | .decLimit => 0x1C
  | .decValue => 0x20
  | .decCount => 0x24
  | .reserved => 0x28

/-- One line of a host program (30_encoding R93, R94). -/
inductive HostLine where
  /-- `wr REG, imm32`. -/
  | wr (r : Reg) (imm : Word)
  /-- `rd REG -> name`. -/
  | rd (r : Reg)
  /-- `mb addr, b0, b1, ...`. -/
  | mb (addr : Nat) (bytes : List Byte)
  /-- `poll -> s`. -/
  | poll
  /-- `encode v`. -/
  | encode (v : Word)
  /-- `decode pos, lim`. -/
  | decode (pos lim : Word)
  /-- `redecode`. -/
  | redecode
deriving DecidableEq, Repr

/-- A pseudo-operation as the lines it stands for (30_encoding R94). `poll` is a loop, which no list of lines is: it stays one line,
and `hostTurn` carries the loop out. -/
def HostLine.expand : HostLine → List HostLine
  | .wr r imm => [.wr r imm]
  | .rd r => [.rd r]
  | .mb a bs => [.mb a bs]
  | .poll => [.poll]
  | .encode v => [.wr .encIn v, .wr .ctrl 0x00000001#32, .poll]
  | .decode pos lim => [.wr .decPos pos, .wr .decLimit lim, .wr .ctrl 0x00000002#32, .poll]
  | .redecode => [.wr .ctrl 0x00000002#32, .poll]

/-- What the host does next: one transaction, or a loop of them. -/
inductive HostOp where
  /-- One transaction. -/
  | access (ev : Event)
  /-- `L: rd STATUS -> s ; if s[0] = 1 goto L`, with STATUS at `status` (30_encoding R94). -/
  | poll (status : Nat)
deriving DecidableEq, Repr

/-- One BUF write per byte, at rising addresses (30_encoding R93). -/
def byteWrites : Nat → List Byte → List HostOp
  | _, [] => []
  | a, b :: bs => .access (.bufWrite a b) :: byteWrites (a + 1) bs

/-- What the host does for a line that `expand` leaves as it is, at a window based at `base` (30_encoding R93, R94). -/
def HostLine.basic (base : Nat) : HostLine → List HostOp
  | .wr r imm => [.access (.busWrite (base + regOffset r) 4 imm)]
  | .rd r => [.access (.busRead (base + regOffset r) 4)]
  | .mb a bs => byteWrites a bs
  | .poll => [.poll (base + regOffset .status)]
  | .encode _ => []
  | .decode _ _ => []
  | .redecode => []

/-- A host program as what the host does, in program order. -/
def hostOps (base : Nat) (program : List HostLine) : List HostOp :=
  (program.flatMap HostLine.expand).flatMap (HostLine.basic base)

/-! ### The host agent -/

/-- The loop test of `poll`: s[0] = 1 (30_encoding R94). -/
def pollAgain (s : Word) : Bool := s.getLsbD 0

/-- A host at its program: what it has yet to do, the transactions it has made, each with the host's read data after it, and the
machine. -/
structure HostRun where
  todo : List HostOp
  trace : List (Event × Word)
  machine : State
deriving DecidableEq, Repr

/-- The host at the start of `ops`. -/
def HostRun.start (ops : List HostOp) (s : State) : HostRun := { todo := ops, trace := [], machine := s }

/-- One transaction; what is left to do may depend on the data it returned. -/
def HostRun.transact (ev : Event) (left : Word → List HostOp) (r : HostRun) : Host.Outcome HostRun Fault Refusal :=
  match perform ev r.machine with
  | .next t => .next { todo := left t.rdata, trace := r.trace ++ [(ev, t.rdata)], machine := t }
  | .fault e => .fault e
  | .refused e => .refused e

/-- A turn of the host: its next transaction. A poll reads STATUS and stays where it is while the word read has s[0] = 1
(30_encoding R94). -/
def hostTurn (r : HostRun) : Host.Outcome HostRun Fault Refusal :=
  match r.todo with
  | [] => .next r
  | .access ev :: rest => r.transact ev fun _ => rest
  | .poll status :: rest =>
    r.transact (.busRead status 4) fun s => if pollAgain s then .poll status :: rest else rest

/-- A step of some other agent: an engine, a reset, the host of another window (00_scope R5). -/
def otherTurn (ev : Event) (r : HostRun) : Host.Outcome HostRun Fault Refusal :=
  match perform ev r.machine with
  | .next t => .next { r with machine := t }
  | .fault e => .fault e
  | .refused e => .refused e

/-- Whose turn it is. -/
inductive Turn where
  | host
  | other (ev : Event)
deriving DecidableEq, Repr

/-- One turn of a schedule. -/
def takeTurn : Turn → HostRun → Host.Outcome HostRun Fault Refusal
  | .host, r => hostTurn r
  | .other ev, r => otherTurn ev r

/-- A run of a host program under a schedule, which stops at the first fault. -/
def hostRun : List Turn → HostRun → Host.Outcome HostRun Fault Refusal
  | [], r => .next r
  | turn :: turns, r =>
    match takeTurn turn r with
    | .next q => hostRun turns q
    | .fault e => .fault e
    | .refused e => .refused e

/-! ### The end of a run -/

/-- The end of a run of a host program that drives instance `n` (60_exceptions R175): the program has no more operations and
BUSY = 0. What other instances and the other agents have yet to do is no part of it (log entry 22). -/
def HostRun.Final (n : Nat) (r : HostRun) : Prop :=
  r.todo = [] ∧ ∃ i, r.machine.instAt n = some i ∧ i.status.busy = false

/-- `Final` of what a run answers: a recorded fault is never final (60_exceptions R174, R175). -/
def FinalOutcome (n : Nat) : Host.Outcome HostRun Fault Refusal → Prop
  | .next r => r.Final n
  | .fault _ => False
  | .refused _ => False

/-! ### Fair schedules -/

/-- An endless schedule: whose turn comes at each moment. -/
abbrev Schedule := Nat → Turn

/-- The run of the first `m` turns of `sched`. -/
def runFor (sched : Schedule) (m : Nat) (r : HostRun) : Host.Outcome HostRun Fault Refusal :=
  hostRun ((List.range m).map sched) r

/-- The engine of instance `n` is weakly fair in the run of `sched` from `r` (70_reset R199): after every moment there is one at
which the engine takes a turn, or at which it has no enabled step. -/
def WeaklyFair (n : Nat) (sched : Schedule) (r : HostRun) : Prop :=
  ∀ m : Nat, ∃ k : Nat, m ≤ k ∧
    (sched k = .other (.engine n) ∨
      ∀ q : HostRun, runFor sched k r = .next q → (q.machine.focus n).engineReady = false)

/-- The host goes on taking turns, as a poll needs to end (log entry 23). -/
def HostGoesOn (sched : Schedule) : Prop := ∀ m : Nat, ∃ k : Nat, m ≤ k ∧ sched k = .host

/-- No other agent writes the window of instance `n`: one host drives it (92 D33, log entry 18). -/
def SoleHost (n : Nat) (sched : Schedule) (s : State) : Prop :=
  ∀ (k addr size : Nat) (w : Word), sched k = .other (.busWrite addr size w) → s.target addr size ≠ some n

/-- A fair schedule for a host that drives instance `n`. -/
def FairSchedule (n : Nat) (sched : Schedule) (r : HostRun) : Prop :=
  WeaklyFair n sched r ∧ HostGoesOn sched ∧ SoleHost n sched r.machine

/-! ### The encoding of a program -/

/-- The transactions of `ops` when its polls, in order, loop `again` times each before the read that ends them. -/
def opEvents : List Nat → List HostOp → List Event
  | _, [] => []
  | again, .access ev :: ops => ev :: opEvents again ops
  | again, .poll status :: ops =>
    List.replicate (again.headD 0 + 1) (.busRead status 4) ++ opEvents again.tail ops

/-- The encoding of a host program: its bus transactions in program order, where its polls loop `again` times each
(30_encoding R95). Which loop counts a run has follows from its reads (`Transacts`). -/
def hostEvents (base : Nat) (again : List Nat) (program : List HostLine) : List Event :=
  opEvents again (hostOps base program)

/-- The transactions `trace`, each with the data it returned, are those of `ops` carried out to the end: a poll is any number of
STATUS reads that returned s[0] = 1 and then one that returned s[0] = 0 (30_encoding R94, R95). -/
def Transacts : List HostOp → List (Event × Word) → Prop
  | [], trace => trace = []
  | .access ev :: ops, trace => ∃ d rest, trace = (ev, d) :: rest ∧ Transacts ops rest
  | .poll status :: ops, trace =>
    ∃ (looped : List Word) (last : Word) (rest : List (Event × Word)),
      trace = looped.map (fun d => (.busRead status 4, d)) ++ (.busRead status 4, last) :: rest ∧
        (∀ d ∈ looped, d.getLsbD 0 = true) ∧ last.getLsbD 0 = false ∧ Transacts ops rest

end Sys2Proof.Machine
end

