-- ==== Sys2Proof/Safety.lean ====
section
/-! DEFINITION. What claims are stated in: the invariant of 10_state R44 with the facts the register rules add to it, a stuck
engine (60_exceptions R177), and the events and outcomes statements name. The end of a run (R175) is `HostRun.Final`. -/

namespace Sys2Proof.Machine

/-! ### The invariant -/

/-- What holds of every instance in every reachable state. -/
structure InstInv (pl : Platform) (i : Inst) : Prop where
  /-- R44.1, R37. -/
  busy_iff : i.status.busy = true ↔ i.op ≠ .idle
  /-- R44.2, R38. -/
  rest : i.op ≠ .dec → i.k.val = 0 ∧ i.acc = 0#35
  /-- R44.3: only bytes 0 .. K-1 have been ORed in. -/
  acc_lt : i.op = .dec → i.acc.toNat < 2 ^ (7 * i.k.val)
  /-- R44.4. -/
  busy_clear : i.status.busy = true → i.status.done = false ∧ i.status.err = .ok
  /-- R44.5. -/
  fresh_ok : i.status.done = false → i.status.busy = false → i.status.err = .ok
  /-- R44.6, R31. -/
  encLen_le : i.encLen.toNat ≤ 5
  /-- R44.6, R35. -/
  decCount_le : i.decCount.toNat ≤ 5
  /-- R32: DEC_POS holds an AW-bit address. -/
  pos_lt : i.decPos.toNat < bufSize pl
  /-- R33: DEC_LIMIT holds an AW-bit address. -/
  limit_lt : i.decLimit.toNat < bufSize pl
  /-- R29: a byte at an index ENC_LEN or above reads 0x00. -/
  out0_tail : ∀ n : Nat, i.encLen.toNat ≤ n → n < 4 → i.encOut0.extractLsb' (8 * n) 8 = 0#8
  /-- R30: 0x00 if ENC_LEN < 5. -/
  out1_tail : i.encLen.toNat < 5 → i.encOut1 = 0#8
  /-- R30: always in 0x00 .. 0x07. -/
  out1_le : i.encOut1.toNat ≤ 7
  /-- R102, R108: the results of a running ENCODE read 0. -/
  enc_clear : i.op = .enc → i.encOut0 = 0#32 ∧ i.encOut1 = 0#8 ∧ i.encLen = 0#3
  /-- R103, R108: the results of a running DECODE read 0. -/
  dec_clear : i.op = .dec → i.decValue = 0#31 ∧ i.decCount = 0#3
  /-- R38, R140: the K bytes already read were there. -/
  read_le : i.op = .dec → i.k.val ≤ i.avail
  /-- R7: BASE is a multiple of 0x100. -/
  base_aligned : i.base % 0x100 = 0

/-- The invariant of the machine. -/
structure Inv (s : State) : Prop where
  /-- R7: 1 ≤ AW ≤ 32. -/
  aw_pos : 1 ≤ s.plat.aw
  aw_le : s.plat.aw ≤ 32
  /-- BUF is in canonical form and lists only addresses of the space. -/
  buf_wf : s.buf.wf = true
  buf_below : s.buf.below (bufSize s.plat) = true
  insts : ∀ i ∈ s.insts, InstInv s.plat i

/-! ### Runs -/

/-- `ev` happens next. -/
def State.withEvent (ev : Event) (s : State) : State := { s with input := ev :: s.input }

/-- `n` turns of instance 0's engine happen next. -/
def State.withTurns (n : Nat) (s : State) : State :=
  { s with input := List.replicate n (.engine 0) ++ s.input }

/-- Instance 0's engine is stuck: a DECODE's read is due at an address the platform does not serve (60_exceptions R177). -/
def State.Stuck (s : State) : Prop :=
  s.inst.status.busy = true ∧ s.inst.op = .dec ∧ s.inst.k.val < s.inst.avail ∧ admits s.plat s.byteAddr = false

/-- Every address of a DECODE's buffer is served (70_reset R193). -/
def State.Served (s : State) : Prop :=
  ∀ a, s.inst.decPos.toNat ≤ a → a < s.inst.decLimit.toNat → admits s.plat a = true

/-- The instance an event acts on, if it acts on one. -/
def State.eventInst (s : State) : Event → Option Nat
  | .busWrite addr size _ => s.target addr size
  | .busRead _ _ => none
  | .bufWrite _ _ => none
  | .bufRead _ => none
  | .engine n => some n
  | .reset n => some n

/-! ### A decode as a whole -/

/-- The number of bytes a decode read. -/
def DecodeOutcome.count : DecodeOutcome → Nat
  | .ok _ c => c
  | .truncated c => c
  | .malformed c => c
  | .outOfRange c => c

/-- The number of engine steps a DECODE takes (42_decoder R151). -/
def DecodeOutcome.steps : DecodeOutcome → Nat
  | .ok _ c => c
  | .truncated c => c + 1
  | .malformed c => c
  | .outOfRange c => c

/-- The kind a decode completes with. -/
def DecodeOutcome.kind : DecodeOutcome → ErrKind
  | .ok _ _ => .ok
  | .truncated _ => .truncated
  | .malformed _ => .malformed
  | .outOfRange _ => .outOfRange

/-- The value a decode leaves in DEC_VALUE: 0 after a failure. -/
def DecodeOutcome.value : DecodeOutcome → BitVec 31
  | .ok v _ => v
  | .truncated _ => 0#31
  | .malformed _ => 0#31
  | .outOfRange _ => 0#31

/-- How far a decode advances the cursor: not at all after a failure. -/
def DecodeOutcome.advance : DecodeOutcome → Nat
  | .ok _ c => c
  | .truncated _ => 0
  | .malformed _ => 0
  | .outOfRange _ => 0

/-- The pure decoder on what instance 0's registers name (42_decoder R141). -/
def State.decodeOutcome (s : State) : DecodeOutcome := dec s.buf s.inst.decPos.toNat s.inst.avail

/-- An idle instance once a DECODE that ended in `o` has completed: STATUS, DEC_VALUE, DEC_COUNT and DEC_POS, and nothing
else (42_decoder R143, R146, 60_exceptions R171). -/
def Inst.afterDecode (o : DecodeOutcome) (i : Inst) : Inst :=
  { i with
    status := { busy := false, done := true, err := o.kind, ign := false }
    decValue := o.value
    decCount := BitVec.ofNat 3 o.count
    decPos := i.decPos + BitVec.ofNat 32 o.advance
    op := .idle
    k := 0
    acc := 0#35 }

/-- The sum of the first `n` payloads from address `pos`, each in its own group of 7 bits (30_encoding R85). -/
def assembled (b : Memory) (pos : Nat) : Nat → Nat
  | 0 => 0
  | n + 1 => assembled b pos n + (payload (b.read (pos + n))).toNat * 2 ^ (7 * n)

end Sys2Proof.Machine
end

