-- ==== Sys2Proof/Certificates/Slice0/Obligations.lean ====
section
/-! DEFINITION. The statements for the provers. Each docstring names the rules of spec/ it formalises. Next states are
written out field by field, not through the operations the meanings are made of, so an equation says the
instruction's result and its whole frame at once. -/

open Sys2Proof
open Sys2Proof.Machine

/-! ### Encoding -/

/-- 30_encoding R80, R81, R86, R87: decoding the encoded form of a well-formed instruction, at any byte index where the
opcode table has it, gives the instruction back with every operand. -/
def Obligations.DecodeOfEncoded : Prop :=
  ∀ (i : Instr) (k : Fin 5), i.wellFormed = true → i.fitsAt k = true → decodeInstr k (encodeInstr i) = i

/-- 30_encoding R87, R88, R89: every command word and every (K, byte) pair is exactly one instruction. -/
def Obligations.EveryFormIsOneInstr : Prop :=
  ∀ (k : Fin 5) (e : Encoded), ∃ i : Instr,
    (i.wellFormed = true ∧ i.fitsAt k = true ∧ encodeInstr i = e) ∧
      ∀ j : Instr, j.wellFormed = true → j.fitsAt k = true → encodeInstr j = e → j = i

/-- 30_encoding R87, as the match and mask columns of its table give it. -/
def Obligations.ByteClassesByMatchAndMask : Prop :=
  ∀ (k : Fin 5) (b : Byte),
    (k.val < 4 → b &&& 0x80#8 = 0x80#8 → decodeByte k b = .cont (b.extractLsb' 0 7)) ∧
    (k.val < 4 → b &&& 0x80#8 = 0x00#8 → decodeByte k b = .term (b.extractLsb' 0 7)) ∧
    (k.val = 4 → b &&& 0x80#8 = 0x80#8 → decodeByte k b = .cont5 (b.extractLsb' 0 7)) ∧
    (k.val = 4 → b &&& 0xF8#8 = 0x00#8 → decodeByte k b = .term5 (b.extractLsb' 0 3)) ∧
    (k.val = 4 → b &&& 0x80#8 = 0x00#8 → b &&& 0xF8#8 ≠ 0x00#8 → decodeByte k b = .ovr5 (b.extractLsb' 0 7))

/-- Words written out from 30_encoding R86 and R87. -/
def Obligations.SampleFormsDecode : Prop :=
  decodeInstr 0 (.ctrl 0b00000000000000000000000000000000#32) = .nop ∧
  decodeInstr 0 (.ctrl 0b00000000000000000000000000000001#32) = .encode ∧
  decodeInstr 0 (.ctrl 0b00000000000000000000000000000010#32) = .decode ∧
  decodeInstr 0 (.ctrl 0b00000000000000000000000000000011#32) = .illegalCmd3 ∧
  decodeInstr 0 (.ctrl 0b10000000000000000000000000000001#32) = .illegalZ 0x80000001#32 ∧
  decodeInstr 0 (.wire 0b10101100#8) = .cont 0b0101100#7 ∧
  decodeInstr 1 (.wire 0b00000010#8) = .term 0b0000010#7 ∧
  decodeInstr 4 (.wire 0b10001000#8) = .cont5 0b0001000#7 ∧
  decodeInstr 4 (.wire 0b00000111#8) = .term5 0b111#3 ∧
  decodeInstr 4 (.wire 0b00001000#8) = .ovr5 0b0001000#7 ∧
  decodeInstr 2 .nothing = .noByte

/-! ### A step runs the decoded instruction -/

/-- 40_control R100, 20_memory R77: the step of a host write to CTRL is the meaning of the word's instruction, on the
instance whose window is written; the event is used up before. On instance 0 it is `exec` as it stands. -/
def Obligations.StepRunsCommandWritten : Prop :=
  ∀ (s : State) (w : Word),
    (∀ (n : Nat) (i : Inst), s.instAt n = some i → s.target i.base 4 = some n →
      step (s.withEvent (.busWrite i.base 4 w)) = atInst n (exec (decodeCtrl w)) s) ∧
    step (s.withEvent (.busWrite s.inst.base 4 w)) = exec (decodeCtrl w) s

/-- 42_decoder R143, 20_memory R63, R70: while an instance decodes, its engine's step is the meaning of the class of the
byte at DEC_POS + K, and of NOBYTE where no byte remains; the event is used up before. `State.focus n` shows the machine
with instance `n` in instance 0's place. On instance 0 it is `exec` as it stands. -/
def Obligations.StepRunsByteClassRead : Prop :=
  ∀ (s f : State) (n : Nat), n < s.numInst → f = s.focus n → f.inst.status.busy = true → f.inst.op = .dec →
    (f.inst.avail ≤ f.inst.k.val → step (s.withEvent (.engine n)) = atInst n (exec .noByte) s) ∧
    (f.inst.k.val < f.inst.avail →
      admits s.plat ((f.inst.decPos.toNat + f.inst.k.val) % 2 ^ s.plat.aw) = true →
      step (s.withEvent (.engine n)) =
        atInst n
          (exec (decodeByte f.inst.k (s.buf.read ((f.inst.decPos.toNat + f.inst.k.val) % 2 ^ s.plat.aw)))) s) ∧
    (n = 0 → ∀ i : Instr, atInst n (exec i) s = exec i s)

/-! ### Commands -/

/-- 40_control R106. -/
def Obligations.NopChangesNothing : Prop :=
  ∀ s : State,
    (s.inst.status.busy = false →
      exec .nop s = .next s ∧ step (s.withEvent (.busWrite s.inst.base 4 0x00000000#32)) = .next s) ∧
    (s.inst.status.busy = true →
      exec .nop s = .next { s with inst := { s.inst with status := { s.inst.status with ign := true } } })

/-- 40_control R102; the last clause, over every state in which an ENCODE waits and every event but a reset, is that ENC_IN
cannot change, and that the ENCODE waits on, until the engine step. -/
def Obligations.EncodeIsAccepted : Prop :=
  ∀ s t : State, s.inst.status.busy = false →
    t = { s with inst := { s.inst with
            status := { busy := true, done := false, err := .ok, ign := false }
            encOut0 := 0#32
            encOut1 := 0#8
            encLen := 0#3
            op := .enc } } →
    exec .encode s = .next t ∧
    step (s.withEvent (.busWrite s.inst.base 4 0x00000001#32)) = .next t ∧
    t.inst.status.word = 0x00000001#32 ∧
    ∀ (r u : State) (ev : Event), r.inst.status.busy = true → r.inst.op = .enc → ev ≠ .reset 0 →
      step (r.withEvent ev) = .next u →
      u.inst.encIn = r.inst.encIn ∧ (ev ≠ .engine 0 → u.inst.status.busy = true ∧ u.inst.op = .enc)

/-- 40_control R103. -/
def Obligations.DecodeIsAccepted : Prop :=
  ∀ s t : State, s.inst.status.busy = false →
    t = { s with inst := { s.inst with
            status := { busy := true, done := false, err := .ok, ign := false }
            decValue := 0#31
            decCount := 0#3
            acc := 0#35
            k := 0
            op := .dec } } →
    exec .decode s = .next t ∧
    step (s.withEvent (.busWrite s.inst.base 4 0x00000002#32)) = .next t ∧
    t.inst.status.word = 0x00000001#32 ∧
    (s.inst.decLimit.toNat ≤ s.inst.decPos.toNat →
      step (t.withEvent (.engine 0)) = .next { t with inst := { t.inst with
        status := { busy := false, done := true, err := .truncated, ign := false }
        decCount := 0#3
        op := .idle } })

/-- 40_control R104; the last clause is that no engine step follows. -/
def Obligations.IllegalCompletesAtOnce : Prop :=
  ∀ (s t : State) (w : Word), s.inst.status.busy = false →
    t = { s with inst := { s.inst with
            status := { busy := false, done := true, err := .illegalCmd, ign := false } } } →
    exec .illegalCmd3 s = .next t ∧
    exec (.illegalZ w) s = .next t ∧
    (w ≠ 0x00000000#32 → w ≠ 0x00000001#32 → w ≠ 0x00000002#32 →
      step (s.withEvent (.busWrite s.inst.base 4 w)) = .next t) ∧
    t.inst.status.word = 0x00000012#32 ∧
    t.engineReady = false

/-- 40_control R105: every register write while BUSY = 1, and so every command; the running command goes on as it would
have, with IGN set. -/
def Obligations.WritesWhileBusyAreIgnored : Prop :=
  ∀ (s t : State), s.inst.status.busy = true →
    t = { s with inst := { s.inst with status := { s.inst.status with ign := true } } } →
    (∀ (off : Nat) (w : Word), off < 0x100 → off % 4 = 0 →
      step (s.withEvent (.busWrite (s.inst.base + off) 4 w)) = .next t) ∧
    exec .nop s = .next t ∧ exec .encode s = .next t ∧ exec .decode s = .next t ∧
    exec .illegalCmd3 s = .next t ∧ (∀ w : Word, exec (.illegalZ w) s = .next t) ∧
    ∀ u : State, step (s.withEvent (.engine 0)) = .next u →
      step (t.withEvent (.engine 0)) = .next { u with inst := { u.inst with status := { u.inst.status with ign := true } } }

/-- 40_control R100: the five branches, with what each leaves. -/
def Obligations.CommandWriteDispatch : Prop :=
  ∀ (s : State) (w : Word),
    step (s.withEvent (.busWrite s.inst.base 4 w)) =
      if s.inst.status.busy = true then
        .next { s with inst := { s.inst with status := { s.inst.status with ign := true } } }
      else if w = 0x00000000#32 then .next s
      else if w = 0x00000001#32 then
        .next { s with inst := { s.inst with
          status := { busy := true, done := false, err := .ok, ign := false }
          encOut0 := 0#32
          encOut1 := 0#8
          encLen := 0#3
          op := .enc } }
      else if w = 0x00000002#32 then
        .next { s with inst := { s.inst with
          status := { busy := true, done := false, err := .ok, ign := false }
          decValue := 0#31
          decCount := 0#3
          acc := 0#35
          k := 0
          op := .dec } }
      else
        .next { s with inst := { s.inst with
          status := { busy := false, done := true, err := .illegalCmd, ign := false } } }

/-! ### Registers -/

/-- 40_control R107. -/
def Obligations.RegisterWritesWhileIdle : Prop :=
  ∀ (s : State) (w : Word), s.inst.status.busy = false →
    step (s.withEvent (.busWrite (s.inst.base + 0x08) 4 w)) =
      .next { s with inst := { s.inst with encIn := w } } ∧
    step (s.withEvent (.busWrite (s.inst.base + 0x18) 4 w)) =
      .next { s with inst := { s.inst with decPos := BitVec.ofNat 32 (w.toNat % 2 ^ s.plat.aw) } } ∧
    step (s.withEvent (.busWrite (s.inst.base + 0x1C) 4 w)) =
      .next { s with inst := { s.inst with decLimit := BitVec.ofNat 32 (w.toNat % 2 ^ s.plat.aw) } } ∧
    ∀ off : Nat, off < 0x100 → off % 4 = 0 → off ≠ 0x00 → off ≠ 0x08 → off ≠ 0x18 → off ≠ 0x1C →
      step (s.withEvent (.busWrite (s.inst.base + off) 4 w)) = .next s

/-- 40_control R108, 20_memory R62: what a read returns, that it changes nothing in the block, and what reads 0 while
BUSY = 1. -/
def Obligations.RegisterReads : Prop :=
  ∀ (s : State) (off : Nat), off < 0x100 → off % 4 = 0 →
    ∃ v : Word,
      step (s.withEvent (.busRead (s.inst.base + off) 4)) = .next { s with rdata := v } ∧
      v = (if off = 0x04 then s.inst.status.word
        else if off = 0x08 then s.inst.encIn
        else if off = 0x0C then s.inst.encOut0
        else if off = 0x10 then 0#24 ++ s.inst.encOut1
        else if off = 0x14 then 0#29 ++ s.inst.encLen
        else if off = 0x18 then s.inst.decPos
        else if off = 0x1C then s.inst.decLimit
        else if off = 0x20 then 0#1 ++ s.inst.decValue
        else if off = 0x24 then 0#29 ++ s.inst.decCount
        else 0#32) ∧
      (InstInv s.plat s.inst → s.inst.op = .enc → off = 0x0C ∨ off = 0x10 ∨ off = 0x14 → v = 0#32) ∧
      (InstInv s.plat s.inst → s.inst.op = .dec → off = 0x20 ∨ off = 0x24 → v = 0#32)

/-- 10_state R27. -/
def Obligations.StatusWordLayout : Prop :=
  ∀ s : State,
    (s.inst.status.word.getLsbD 0 = s.inst.status.busy ∧
      s.inst.status.word.getLsbD 1 = s.inst.status.done ∧
      s.inst.status.word.extractLsb' 2 3 = s.inst.status.err.code ∧
      s.inst.status.word.getLsbD 5 = s.inst.status.ign ∧
      s.inst.status.word.extractLsb' 6 26 = 0#26) ∧
    (ErrKind.ok.code = 0#3 ∧ ErrKind.truncated.code = 1#3 ∧ ErrKind.malformed.code = 2#3 ∧
      ErrKind.outOfRange.code = 3#3 ∧ ErrKind.illegalCmd.code = 4#3) ∧
    step (s.withEvent (.busRead (s.inst.base + 0x04) 4)) = .next { s with rdata := s.inst.status.word } ∧
    ∀ w : Word,
      step (s.withEvent (.busWrite (s.inst.base + 0x04) 4 w)) =
        if s.inst.status.busy = true then
          .next { s with inst := { s.inst with status := { s.inst.status with ign := true } } }
        else .next s

/-- 10_state R36. -/
def Obligations.ReservedOffsets : Prop :=
  ∀ (s : State) (off : Nat), 0x28 ≤ off → off ≤ 0xFC → off % 4 = 0 →
    step (s.withEvent (.busRead (s.inst.base + off) 4)) = .next { s with rdata := 0x00000000#32 } ∧
    ∀ w : Word,
      step (s.withEvent (.busWrite (s.inst.base + off) 4 w)) =
        if s.inst.status.busy = true then
          .next { s with inst := { s.inst with status := { s.inst.status with ign := true } } }
        else .next s

/-- 10_state R32, R33: DEC_POS and DEC_LIMIT hold AW-bit addresses, so their bits [31:AW] read 0. -/
def Obligations.CursorBitsAboveAwReadZero : Prop :=
  ∀ (s : State) (b : Nat), Inv s → s.plat.aw ≤ b →
    ∃ p l : Word,
      step (s.withEvent (.busRead (s.inst.base + 0x18) 4)) = .next { s with rdata := p } ∧
      step (s.withEvent (.busRead (s.inst.base + 0x1C) 4)) = .next { s with rdata := l } ∧
      p.getLsbD b = false ∧ l.getLsbD b = false

/-- 20_memory R61, 60_exceptions R176.1: a window access that is not an aligned 32-bit word is a fault, whichever instance's
window it reaches; for instance 0 in plain arithmetic. An access reaches the first window that holds one of its bytes,
which is the model's choice (log entry 14). -/
def Obligations.BadWindowAccessFaults : Prop :=
  ∀ (s : State) (addr size n : Nat) (i : Inst) (w : Word), s.instAt n = some i →
    (s.target addr size = some n ↔
      ((0 < size ∧ addr < i.base + 0x100 ∧ i.base < addr + size) ∧
        ∀ (m : Nat) (j : Inst), m < n → s.instAt m = some j →
          ¬ (0 < size ∧ addr < j.base + 0x100 ∧ j.base < addr + size))) ∧
    (s.target addr size = some n → ¬ (size = 4 ∧ i.base ≤ addr ∧ (addr - i.base) % 4 = 0) →
      step (s.withEvent (.busWrite addr size w)) = .fault .badBusAccess ∧
      step (s.withEvent (.busRead addr size)) = .fault .badBusAccess) ∧
    (0 < size → addr < s.inst.base + 0x100 → s.inst.base < addr + size →
      ¬ (size = 4 ∧ s.inst.base ≤ addr ∧ (addr - s.inst.base) % 4 = 0) →
      step (s.withEvent (.busWrite addr size w)) = .fault .badBusAccess ∧
      step (s.withEvent (.busRead addr size)) = .fault .badBusAccess)

/-! ### BUF -/

/-- 20_memory R60, R73, 60_exceptions R176.2: a host BUF write faults in an address range an instance is decoding and
outside the space (the latter is the model's reading of R60, log entry 7); elsewhere it changes that byte and no other.
That it does so whether or not the platform serves the address is the model's reading (log entry 9), that the check asks for
OP = DEC alone is log entry 8, and the canonical form of BUF is the model's own (log entry 4). -/
def Obligations.HostBufWrites : Prop :=
  ∀ (s : State) (a : Nat) (b : Byte),
    (2 ^ s.plat.aw ≤ a → step (s.withEvent (.bufWrite a b)) = .fault .noSuchBufAddress) ∧
    (a < 2 ^ s.plat.aw →
      (∃ i ∈ s.insts, i.op = .dec ∧ i.decPos.toNat ≤ a ∧ a < i.decLimit.toNat) →
      step (s.withEvent (.bufWrite a b)) = .fault .bufWriteInUse) ∧
    (a < 2 ^ s.plat.aw → s.buf.wf = true →
      (∀ i ∈ s.insts, i.op = .dec → ¬ (i.decPos.toNat ≤ a ∧ a < i.decLimit.toNat)) →
      ∃ m : Memory,
        step (s.withEvent (.bufWrite a b)) = .next { s with buf := m } ∧
        m.wf = true ∧ m.read a = b ∧ ∀ c : Nat, c ≠ a → m.read c = s.buf.read c)

/-- 20_memory R71: a host read after a host write of the same byte returns it, and reading changes nothing in the block. That a
host access takes effect whether or not the platform serves the address is the model's reading (log entry 9), and the
canonical form of BUF, the premise, is the model's own (log entry 4). -/
def Obligations.BufReadReturnsLastWrite : Prop :=
  ∀ (s t : State) (a : Nat) (b : Byte), s.buf.wf = true →
    step (s.withEvent (.bufWrite a b)) = .next t →
    step (t.withEvent (.bufRead a)) = .next { t with rdata := 0#24 ++ b } ∧
    ∀ c : Nat, c < 2 ^ s.plat.aw → c ≠ a →
      step (t.withEvent (.bufRead c)) = .next { t with rdata := 0#24 ++ s.buf.read c }

/-- 20_memory R64: only a host BUF write changes BUF. -/
def Obligations.BlockNeverWritesBuf : Prop :=
  ∀ s t : State, step s = .next t → (∀ (a : Nat) (b : Byte) (rest : List Event), s.input ≠ .bufWrite a b :: rest) →
    t.buf = s.buf ∧ ∀ a : Nat, t.buf.read a = s.buf.read a

/-! ### The encoder -/

/-- 41_encoder R122: the ENCODE engine step, that the output registers it leaves alone on an error are 0 (in every state the
invariant holds in), and the rule's own example and corner cases. -/
def Obligations.EncoderEngineStep : Prop :=
  ∀ s : State, s.inst.status.busy = true → s.inst.op = .enc →
    (s.inst.encIn.getLsbD 31 = true →
      step (s.withEvent (.engine 0)) = .next { s with inst := { s.inst with
        status := { busy := false, done := true, err := .outOfRange, ign := s.inst.status.ign }
        op := .idle
        k := 0
        acc := 0#35 } }) ∧
    (InstInv s.plat s.inst → s.inst.encOut0 = 0#32 ∧ s.inst.encOut1 = 0#8 ∧ s.inst.encLen = 0#3) ∧
    (s.inst.encIn.getLsbD 31 = false →
      step (s.withEvent (.engine 0)) = .next { s with inst := { s.inst with
        status := { busy := false, done := true, err := .ok, ign := s.inst.status.ign }
        encOut0 :=
          (enc (s.inst.encIn.extractLsb' 0 31)).getD 3 0#8 ++ (enc (s.inst.encIn.extractLsb' 0 31)).getD 2 0#8 ++
          (enc (s.inst.encIn.extractLsb' 0 31)).getD 1 0#8 ++ (enc (s.inst.encIn.extractLsb' 0 31)).getD 0 0#8
        encOut1 := (enc (s.inst.encIn.extractLsb' 0 31)).getD 4 0#8
        encLen := BitVec.ofNat 3 (enc (s.inst.encIn.extractLsb' 0 31)).length
        op := .idle
        k := 0
        acc := 0#35 } }) ∧
    enc 0#31 = [0x00#8] ∧
    enc 0x7FFFFFFF#31 = [0xFF#8, 0xFF#8, 0xFF#8, 0xFF#8, 0x07#8] ∧
    (enc 0x0FFFFFFF#31).length = 4 ∧ (enc 0x10000000#31).length = 5 ∧
    enc 300#31 = [0xAC#8, 0x02#8]

/-- 41_encoder R121, 30_encoding R83, R84: the loop and the closed form agree. -/
def Obligations.EncoderClosedForm : Prop :=
  ∀ v : BitVec 31,
    (enc v).length = encLength v ∧
    ∀ k : Nat, k < encLength v →
      (enc v)[k]? = some (BitVec.ofNat 8
        (v.toNat / 2 ^ (7 * k) % 128 + if k < encLength v - 1 then 0x80 else 0x00))

/-- 41_encoder R123. -/
def Obligations.EncodedFormProperties : Prop :=
  ∀ v : BitVec 31,
    (1 ≤ (enc v).length ∧ (enc v).length ≤ 5) ∧
    (∀ (k : Nat) (b : Byte), (enc v)[k]? = some b → b.getLsbD 7 = decide (k + 1 < (enc v).length)) ∧
    (∀ b : Byte, (enc v).length = 5 → (enc v)[4]? = some b → b.toNat = v.toNat / 2 ^ 28 ∧ b.toNat ≤ 0x07) ∧
    (∀ b : Byte, 1 < (enc v).length → (enc v)[(enc v).length - 1]? = some b → b ≠ 0x00#8) ∧
    ∀ u : BitVec 31, enc u = enc v → u = v

/-- 41_encoder R124: the pure decoder on the encoder's output gives the value back with all its bytes, whatever follows
them in the buffer. -/
def Obligations.DecodeInvertsEncode : Prop :=
  ∀ (v : BitVec 31) (b : Memory) (pos avail : Nat), (enc v).length ≤ avail →
    (∀ (j : Nat) (x : Byte), (enc v)[j]? = some x → b.read (pos + j) = x) →
    dec b pos avail = .ok v (enc v).length

/-- 41_encoder R124 on the machine: with the encoder's output for `v` in BUF at DEC_POS and served, a DECODE written to CTRL
completes OK after one engine step per byte, with DEC_VALUE = v and DEC_COUNT = |enc(v)|. -/
def Obligations.RoundTripOnTheMachine : Prop :=
  ∀ (s : State) (v : BitVec 31), Inv s → s.inst.status.busy = false → s.Served →
    (enc v).length ≤ s.inst.avail →
    (∀ (j : Nat) (x : Byte), (enc v)[j]? = some x → s.buf.read (s.inst.decPos.toNat + j) = x) →
    ∃ t : State,
      Host.Core.run Sys2Proof.core (1 + (enc v).length)
        ((s.withTurns (enc v).length).withEvent (.busWrite s.inst.base 4 0x00000002#32)) = .next t ∧
      t.inst.status.word = 0x00000002#32 ∧ t.inst.decValue = v ∧ t.inst.decCount.toNat = (enc v).length ∧
      t.inst.decPos.toNat = s.inst.decPos.toNat + (enc v).length ∧ t.buf = s.buf ∧ t.input = s.input

/-! ### The decoder's byte classes -/

/-- 30_encoding R87 and 42_decoder R143, class CONT. -/
def Obligations.ContReadsOn : Prop :=
  ∀ (s : State) (p : BitVec 7), s.inst.op = .dec → s.inst.k.val < 4 →
    ∃ k' : Fin 5, k'.val = s.inst.k.val + 1 ∧
      exec (.cont p) s = .next { s with inst := { s.inst with
        acc := s.inst.acc ||| ((0#28 ++ p) <<< (7 * s.inst.k.val))
        k := k' } }

/-- 30_encoding R87 and 42_decoder R143, class TERM: the sum is an AW-bit one, and DEC_VALUE holds ACC[30:0]. -/
def Obligations.TermCompletes : Prop :=
  ∀ (s : State) (p : BitVec 7), s.inst.op = .dec → s.inst.k.val < 4 →
    exec (.term p) s = .next { s with inst := { s.inst with
      status := { busy := false, done := true, err := .ok, ign := s.inst.status.ign }
      decValue := (s.inst.acc ||| ((0#28 ++ p) <<< (7 * s.inst.k.val))).extractLsb' 0 31
      decCount := BitVec.ofNat 3 (s.inst.k.val + 1)
      decPos := BitVec.ofNat 32 ((s.inst.decPos + BitVec.ofNat 32 (s.inst.k.val + 1)).toNat % 2 ^ s.plat.aw)
      op := .idle
      k := 0
      acc := 0#35 } }

/-- 30_encoding R87 and 42_decoder R143, class TERM5. -/
def Obligations.Term5Completes : Prop :=
  ∀ (s : State) (p : BitVec 3), s.inst.op = .dec → s.inst.k.val = 4 →
    exec (.term5 p) s = .next { s with inst := { s.inst with
      status := { busy := false, done := true, err := .ok, ign := s.inst.status.ign }
      decValue := (s.inst.acc ||| ((0#32 ++ p) <<< 28)).extractLsb' 0 31
      decCount := 5#3
      decPos := BitVec.ofNat 32 ((s.inst.decPos + 5#32).toNat % 2 ^ s.plat.aw)
      op := .idle
      k := 0
      acc := 0#35 } }

/-- 30_encoding R87 and 42_decoder R143, classes CONT5 and OVR5: the two failures at index 4. DEC_VALUE and DEC_POS stay. -/
def Obligations.FifthByteFailures : Prop :=
  ∀ (s : State) (p : BitVec 7), s.inst.op = .dec → s.inst.k.val = 4 →
    exec (.cont5 p) s = .next { s with inst := { s.inst with
      status := { busy := false, done := true, err := .malformed, ign := s.inst.status.ign }
      decCount := 5#3
      op := .idle
      k := 0
      acc := 0#35 } } ∧
    exec (.ovr5 p) s = .next { s with inst := { s.inst with
      status := { busy := false, done := true, err := .outOfRange, ign := s.inst.status.ign }
      decCount := 5#3
      op := .idle
      k := 0
      acc := 0#35 } }

/-- 30_encoding R87 and 42_decoder R143, class NOBYTE. DEC_VALUE and DEC_POS stay. -/
def Obligations.NoByteTruncates : Prop :=
  ∀ s : State, s.inst.op = .dec →
    exec .noByte s = .next { s with inst := { s.inst with
      status := { busy := false, done := true, err := .truncated, ign := s.inst.status.ign }
      decCount := BitVec.ofNat 3 s.inst.k.val
      op := .idle
      k := 0
      acc := 0#35 } }

/-! ### The decoder -/

/-- 42_decoder R143: the engine step of a DECODE, branch by branch as its pseudocode has them, for the byte `b` at
DEC_POS + K; then the step that does not happen (R177), and that DEC_VALUE, which a failure leaves alone, is 0. That a turn
of an engine without a step answers the same state is the model's choice (log entry 10). -/
def Obligations.DecoderEngineStep : Prop :=
  ∀ (s : State) (b : Byte) (acc' : BitVec 35), Inv s → s.inst.op = .dec →
    b = s.buf.read (s.inst.decPos.toNat + s.inst.k.val) →
    acc' = s.inst.acc ||| ((0#28 ++ b.extractLsb' 0 7) <<< (7 * s.inst.k.val)) →
    (admits s.plat (s.inst.decPos.toNat + s.inst.k.val) = true ∨
      s.inst.decLimit.toNat ≤ s.inst.decPos.toNat + s.inst.k.val →
    step (s.withEvent (.engine 0)) = .next
      { s with
        inst :=
          if s.inst.decLimit.toNat ≤ s.inst.decPos.toNat + s.inst.k.val then
            { s.inst with
              decCount := BitVec.ofNat 3 s.inst.k.val
              status := { busy := false, done := true, err := .truncated, ign := s.inst.status.ign }
              op := .idle, k := 0, acc := 0#35 }
          else if b.getLsbD 7 = true ∧ s.inst.k.val < 4 then
            { s.inst with acc := acc', k := Fin.ofNat 5 (s.inst.k.val + 1) }
          else if b.getLsbD 7 = true then
            { s.inst with
              decCount := 5#3
              status := { busy := false, done := true, err := .malformed, ign := s.inst.status.ign }
              op := .idle, k := 0, acc := 0#35 }
          else if s.inst.k.val = 4 ∧ 0x07 < (b.extractLsb' 0 7).toNat then
            { s.inst with
              decCount := 5#3
              status := { busy := false, done := true, err := .outOfRange, ign := s.inst.status.ign }
              op := .idle, k := 0, acc := 0#35 }
          else
            { s.inst with
              decValue := acc'.extractLsb' 0 31
              decCount := BitVec.ofNat 3 (s.inst.k.val + 1)
              decPos := s.inst.decPos + BitVec.ofNat 32 (s.inst.k.val + 1)
              status := { busy := false, done := true, err := .ok, ign := s.inst.status.ign }
              op := .idle, k := 0, acc := 0#35 } }) ∧
    (admits s.plat (s.inst.decPos.toNat + s.inst.k.val) = false →
      s.inst.decPos.toNat + s.inst.k.val < s.inst.decLimit.toNat →
      step (s.withEvent (.engine 0)) = .next s) ∧
    s.inst.decValue = 0#31

/-- 42_decoder R141, R142, R151: from acceptance, the engine's steps produce exactly dec(B, DEC_POS, avail), in as many steps
as R151 counts. -/
def Obligations.EngineRefinesPureDecoder : Prop :=
  ∀ s : State, Inv s → s.inst.status.busy = false → s.Served →
    Host.Core.run Sys2Proof.core (1 + s.decodeOutcome.steps)
        ((s.withTurns s.decodeOutcome.steps).withEvent (.busWrite s.inst.base 4 0x00000002#32)) =
      .next { s with inst := s.inst.afterDecode s.decodeOutcome }

/-- 42_decoder R151: the instance is BUSY after every engine step but the last. -/
def Obligations.BusyUntilTheLastStep : Prop :=
  ∀ (s : State) (n : Nat), Inv s → s.inst.status.busy = false → s.Served → n < s.decodeOutcome.steps →
    ∃ t : State,
      Host.Core.run Sys2Proof.core (1 + n)
        ((s.withTurns n).withEvent (.busWrite s.inst.base 4 0x00000002#32)) = .next t ∧
      t.inst.status.busy = true ∧ t.inst.op = .dec ∧ t.inst.k.val = n ∧ t.input = s.input

/-- 42_decoder R151, R141: how many steps a decode takes by its outcome, and never more than five. -/
def Obligations.DecodeStepCounts : Prop :=
  ∀ (b : Memory) (pos avail : Nat),
    (1 ≤ (dec b pos avail).steps ∧ (dec b pos avail).steps ≤ 5) ∧
    (∀ (v : BitVec 31) (c : Nat), dec b pos avail = .ok v c → 1 ≤ c ∧ c ≤ 5 ∧ c ≤ avail) ∧
    (∀ c : Nat, dec b pos avail = .truncated c → c = avail ∧ c ≤ 4) ∧
    (∀ c : Nat, dec b pos avail = .malformed c → c = 5 ∧ 5 ≤ avail) ∧
    ∀ c : Nat, dec b pos avail = .outOfRange c → c = 5 ∧ 5 ≤ avail

/-- 42_decoder R145. -/
def Obligations.CheckOrder : Prop :=
  ∀ (b : Memory) (pos avail : Nat),
    (5 ≤ avail → (∀ j : Nat, j < 5 → (b.read (pos + j)).getLsbD 7 = true) → dec b pos avail = .malformed 5) ∧
    (avail ≤ 4 → (∀ j : Nat, j < avail → (b.read (pos + j)).getLsbD 7 = true) → dec b pos avail = .truncated avail) ∧
    (∀ c : Nat, dec b pos avail = .malformed c →
      c = 5 ∧ 5 ≤ avail ∧ ∀ j : Nat, j < 5 → (b.read (pos + j)).getLsbD 7 = true)

/-- 42_decoder R148, 30_encoding R85: a terminating byte at any index ends the decode OK, subject only to the fifth byte's
payload, and the value is what the payloads assemble to; no minimality check. -/
def Obligations.TerminatingByteDecodes : Prop :=
  (∀ (b : Memory) (pos avail k : Nat), k ≤ 4 → k < avail →
    (∀ j : Nat, j < k → (b.read (pos + j)).getLsbD 7 = true) →
    (b.read (pos + k)).getLsbD 7 = false →
    (k = 4 → ((b.read (pos + k)).extractLsb' 0 7).toNat ≤ 0x07) →
    ∃ v : BitVec 31, dec b pos avail = .ok v (k + 1) ∧ v.toNat = assembled b pos (k + 1)) ∧
  ∀ b : Memory,
    (b.read 0 = 0x80#8 → b.read 1 = 0x00#8 → dec b 0 2 = .ok 0#31 2) ∧
    (b.read 0 = 0x80#8 → b.read 1 = 0x80#8 → b.read 2 = 0x80#8 → b.read 3 = 0x80#8 → b.read 4 = 0x00#8 →
      dec b 0 5 = .ok 0#31 5) ∧
    (b.read 0 = 0xFF#8 → b.read 1 = 0x00#8 → dec b 0 2 = .ok 127#31 2)

/-- 30_encoding R82, R90, R91: what the decoder accepts, and how many bytes of it, are exactly the wire sequences of R82. -/
def Obligations.AcceptedSequences : Prop :=
  ∀ (b : Memory) (pos avail c : Nat) (v : BitVec 31),
    dec b pos avail = .ok v c ↔
      (1 ≤ c ∧ c ≤ 5 ∧ c ≤ avail ∧ (∀ j : Nat, j + 1 < c → (b.read (pos + j)).getLsbD 7 = true) ∧
        (b.read (pos + (c - 1))).getLsbD 7 = false ∧
        (c = 5 → ((b.read (pos + 4)).extractLsb' 0 7).toNat ≤ 0x07) ∧
        v.toNat = assembled b pos c)

/-- 30_encoding R91: encoding a decoded value gives its bytes back exactly where they were minimal. -/
def Obligations.OnlyMinimalFormsReencode : Prop :=
  ∀ (b : Memory) (pos avail c : Nat) (v : BitVec 31), dec b pos avail = .ok v c →
    ((c = 1 ∨ (b.read (pos + (c - 1))).extractLsb' 0 7 ≠ 0#7) ↔
      enc v = (List.range c).map fun j => b.read (pos + j))

/-- 42_decoder R149: on OK the accumulator is below 2^31, so DEC_VALUE is all of it. -/
def Obligations.ValueLosesNothing : Prop :=
  ∀ (s t : State) (i : Instr), InstInv s.plat s.inst →
    exec i s = .next t →
    (∀ p : BitVec 7, i = .term p →
      t.inst.decValue.toNat = (s.inst.acc ||| ((0#28 ++ p) <<< (7 * s.inst.k.val))).toNat ∧
      t.inst.decValue.toNat < 2 ^ 28) ∧
    (∀ p : BitVec 3, i = .term5 p →
      t.inst.decValue.toNat = (s.inst.acc ||| ((0#32 ++ p) <<< 28)).toNat ∧ t.inst.decValue.toNat < 2 ^ 31)

/-- 42_decoder R146, 10_state R40: an engine step moves DEC_POS only when it completes a DECODE with OK, and then by exactly
DEC_COUNT, without wrapping. -/
def Obligations.CursorMovesOnlyOnSuccess : Prop :=
  ∀ s t : State, Inv s → s.inst.status.busy = true → step (s.withEvent (.engine 0)) = .next t →
    t.inst.decPos.toNat =
      s.inst.decPos.toNat +
        if s.inst.op = .dec ∧ t.inst.status.done = true ∧ t.inst.status.err = .ok then t.inst.decCount.toNat else 0

/-- 20_memory R63, R64, R65: the outcome of a decode depends only on the bytes from the cursor up to the count it reports, so
neither the sentinel behind them nor any byte elsewhere can matter. -/
def Obligations.OnlyConsumedBytesMatter : Prop :=
  ∀ (b c : Memory) (pos avail : Nat),
    (∀ a : Nat, pos ≤ a → a < pos + (dec b pos avail).count → c.read a = b.read a) →
    dec c pos avail = dec b pos avail

/-- 20_memory R73, 40_control R105, 42_decoder R151: whatever event happens to a decoding instance but its own engine's turn
and a reset, if it does not fault, the running DECODE is undisturbed: nothing in the instance but IGN can change, and the
engine's next byte is the same. -/
def Obligations.EventsDoNotDisturbDecode : Prop :=
  ∀ (s t : State) (ev : Event), Inv s → s.inst.op = .dec →
    ev ≠ .engine 0 → ev ≠ .reset 0 → step (s.withEvent ev) = .next t →
    (∃ g : Bool, t.inst = { s.inst with status := { s.inst.status with ign := g } }) ∧ t.nextByte = s.nextByte

/-- 60_exceptions R172, 42_decoder R147: a DECODE that failed and is issued again on the same bytes ends the same way. -/
def Obligations.FailedDecodeRepeats : Prop :=
  ∀ s t : State, Inv s → s.inst.status.busy = false → s.Served → s.decodeOutcome.kind ≠ .ok →
    Host.Core.run Sys2Proof.core (1 + s.decodeOutcome.steps)
        ((s.withTurns s.decodeOutcome.steps).withEvent (.busWrite s.inst.base 4 0x00000002#32)) = .next t →
    t.decodeOutcome = s.decodeOutcome ∧
    Host.Core.run Sys2Proof.core (1 + s.decodeOutcome.steps)
        ((t.withTurns s.decodeOutcome.steps).withEvent (.busWrite t.inst.base 4 0x00000002#32)) = .next t

/-! ### The engine -/

/-- 40_control R109: with BUSY = 0 an engine has no step; with BUSY = 1 the step it has is chosen by OP, but for a stuck one. That
a turn of an engine without a step leaves the machine as it is is the model's choice (log entry 10). -/
def Obligations.EngineStepByOp : Prop :=
  ∀ s : State,
    (s.inst.status.busy = false → s.engineReady = false ∧ step (s.withEvent (.engine 0)) = .next s) ∧
    (s.inst.status.busy = true → s.inst.op = .enc → s.engineReady = true ∧
      ∃ i : Inst, step (s.withEvent (.engine 0)) = .next { s with inst := i } ∧
        i.status.busy = false ∧ i.status.done = true ∧ i.op = .idle) ∧
    (s.inst.status.busy = true → s.inst.op = .dec → ¬ s.Stuck → s.engineReady = true ∧
      ∃ i : Instr, s.fetch = some i ∧ step (s.withEvent (.engine 0)) = exec i s) ∧
    (s.Stuck → s.engineReady = false ∧ step (s.withEvent (.engine 0)) = .next s)

/-- 60_exceptions R177: a stuck engine has no step, STATUS shows BUSY = 1, no event but a reset of the instance gets it out,
with OP, K and ACC as they are, and a reset does. -/
def Obligations.StuckUntilReset : Prop :=
  ∀ s : State, Inv s → s.Stuck →
    s.engineReady = false ∧
    s.inst.status.word.getLsbD 0 = true ∧
    (∀ (ev : Event) (t : State), ev ≠ .reset 0 → step (s.withEvent ev) = .next t →
      t.Stuck ∧ t.inst.op = s.inst.op ∧ t.inst.k = s.inst.k ∧ t.inst.acc = s.inst.acc) ∧
    ∃ t : State, step (s.withEvent (.reset 0)) = .next t ∧ t.inst.status.busy = false ∧ t.inst.op = .idle

/-- 70_reset R199: with no event waiting, an engine that has a step takes it, and the machine stands still only when no
engine has one. Which engine moves first is the model's choice (log entry 2). -/
def Obligations.WaitingEnginesRun : Prop :=
  ∀ s : State, s.input = [] →
    ((∃ n : Nat, n < s.numInst ∧ (s.focus n).engineReady = true) →
      ∃ n : Nat, n < s.numInst ∧ (s.focus n).engineReady = true ∧ step s = atInst n engineTurn s) ∧
    ((∀ n : Nat, n < s.numInst → (s.focus n).engineReady = false) → step s = .next s)

/-! ### Reset and the invariant -/

/-- 70_reset R190, 10_state R45: a reset at any time, BUSY or not. -/
def Obligations.ResetClearsTheInstance : Prop :=
  ∀ s : State,
    step (s.withEvent (.reset 0)) = .next { s with inst :=
      { base := s.inst.base
        status := { busy := false, done := false, err := .ok, ign := false }
        encIn := 0#32, encOut0 := 0#32, encOut1 := 0#8, encLen := 0#3
        decPos := 0#32, decLimit := 0#32, decValue := 0#31, decCount := 0#3
        op := .idle, k := 0, acc := 0#35 } } ∧
    State.reset.inst =
      { base := State.reset.inst.base
        status := { busy := false, done := false, err := .ok, ign := false }
        encIn := 0#32, encOut0 := 0#32, encOut1 := 0#8, encLen := 0#3
        decPos := 0#32, decLimit := 0#32, decValue := 0#31, decCount := 0#3
        op := .idle, k := 0, acc := 0#35 }

/-- 10_state R44, R45. BUF with nothing listed is the model's choice (log entry 4). -/
def Obligations.InvariantAtReset : Prop :=
  Inv State.reset

/-- 10_state R44: every step, of any agent on any instance, keeps the invariant. -/
def Obligations.StepKeepsInvariant : Prop :=
  ∀ s t : State, Inv s → step s = .next t → Inv t

/-! ### The whole machine -/

/-- 60_exceptions R183, 20_memory R79: an event acts on one instance at most, every other instance keeps every register, and
no step changes the platform or how many instances there are. -/
def Obligations.InstancesAreIsolated : Prop :=
  ∀ (s t : State) (ev : Event), step (s.withEvent ev) = .next t →
    (∀ n : Nat, s.eventInst ev ≠ some n → t.instAt n = s.instAt n) ∧
    t.plat = s.plat ∧ t.numInst = s.numInst ∧ t.input = s.input

/-- 70_reset R201: the encoder's steps and the decoder's steps write no data register of the other. -/
def Obligations.EncoderAndDecoderShareNoData : Prop :=
  ∀ s t : State,
    (exec .encode s = .next t ∨ (step (s.withEvent (.engine 0)) = .next t ∧ s.inst.op = .enc) →
      t.inst.decPos = s.inst.decPos ∧ t.inst.decLimit = s.inst.decLimit ∧
      t.inst.decValue = s.inst.decValue ∧ t.inst.decCount = s.inst.decCount) ∧
    (exec .decode s = .next t ∨ (step (s.withEvent (.engine 0)) = .next t ∧ s.inst.op = .dec) →
      t.inst.encIn = s.inst.encIn ∧ t.inst.encOut0 = s.inst.encOut0 ∧
      t.inst.encOut1 = s.inst.encOut1 ∧ t.inst.encLen = s.inst.encLen)

/-- The frame of every instruction (10_state R26, R28-R35, R38, R39, 20_memory R64): none writes BUF, another instance, ENC_IN or
DEC_LIMIT; only TERM and TERM5 write DEC_POS; only ENCODE writes ENC_OUT0, ENC_OUT1, ENC_LEN; of the commands only DECODE
writes DEC_VALUE, DEC_COUNT, K, ACC; no byte class writes IGN. -/
def Obligations.InstructionFrame : Prop :=
  ∀ (i : Instr) (s t : State), exec i s = .next t →
    (t.plat = s.plat ∧ t.peers = s.peers ∧ t.input = s.input ∧ t.rdata = s.rdata ∧
      (∀ a : Nat, t.buf.read a = s.buf.read a) ∧
      t.inst.base = s.inst.base ∧ t.inst.encIn = s.inst.encIn ∧ t.inst.decLimit = s.inst.decLimit) ∧
    ((∀ p, i ≠ .term p) → (∀ p, i ≠ .term5 p) → t.inst.decPos = s.inst.decPos) ∧
    (i ≠ .encode →
      t.inst.encOut0 = s.inst.encOut0 ∧ t.inst.encOut1 = s.inst.encOut1 ∧ t.inst.encLen = s.inst.encLen) ∧
    ((∃ w, encodeInstr i = .ctrl w) → i ≠ .decode →
      t.inst.decValue = s.inst.decValue ∧ t.inst.decCount = s.inst.decCount ∧
      t.inst.k = s.inst.k ∧ t.inst.acc = s.inst.acc) ∧
    ((∀ w, encodeInstr i ≠ .ctrl w) → t.inst.status.ign = s.inst.status.ign)

/-- 42_decoder R143's precondition: the meaning of an instruction stops exactly where a byte class is executed with no decode
running or at an index the class is not found at; it never faults. That it is refused there is the model's choice (log
entry 11). -/
def Obligations.WhereExecStops : Prop :=
  ∀ (i : Instr) (s : State),
    (exec i s = .refused .noEngineStep ↔
      (∀ w, encodeInstr i ≠ .ctrl w) ∧ (s.inst.op ≠ .dec ∨ i.fitsAt s.inst.k = false)) ∧
    (exec i s ≠ .refused .noEngineStep → ∃ t : State, exec i s = .next t)

/-- 60_exceptions R174, R176: no step of the machine is ever refused, and a step faults only on a host access that breaks the
protocol: one that reaches a window (log entry 14) and is not an aligned word of it, or a BUF write in use. That an access
at 2^AW or more faults is the model's reading of 20_memory R60 (log entry 7). -/
def Obligations.OnlyHostViolationsStop : Prop :=
  ∀ s : State,
    (∀ r : Refusal, step s ≠ .refused r) ∧
    ∀ r : Fault, step s = .fault r →
      ∃ (ev : Event) (rest : List Event), s.input = ev :: rest ∧
        ((r = .badBusAccess ∧ ∃ a z : Nat, ((∃ w, ev = .busWrite a z w) ∨ ev = .busRead a z) ∧
            ∃ i ∈ s.insts, (0 < z ∧ a < i.base + 0x100 ∧ i.base < a + z) ∧
              ¬ (z = 4 ∧ i.base ≤ a ∧ (a - i.base) % 4 = 0)) ∨
          (r = .bufWriteInUse ∧ ∃ (a : Nat) (b : Byte), ev = .bufWrite a b ∧ a < 2 ^ s.plat.aw ∧
            ∃ i ∈ s.insts, i.op = .dec ∧ i.decPos.toNat ≤ a ∧ a < i.decLimit.toNat) ∨
          (r = .noSuchBufAddress ∧ ∃ a : Nat, ((∃ b, ev = .bufWrite a b) ∨ ev = .bufRead a) ∧ 2 ^ s.plat.aw ≤ a))

/-- 30_encoding R94, R95: the pseudo-operations as lines, and their transactions when the poll loops `n` times. -/
def Obligations.HostNotationExpands : Prop :=
  ∀ (base n : Nat) (v pos lim : Word),
    (HostLine.expand (.encode v) = [.wr .encIn v, .wr .ctrl 0x00000001#32, .poll] ∧
      HostLine.expand (.decode pos lim) = [.wr .decPos pos, .wr .decLimit lim, .wr .ctrl 0x00000002#32, .poll] ∧
      HostLine.expand .redecode = [.wr .ctrl 0x00000002#32, .poll]) ∧
    hostEvents base [n] [.encode v] =
      .busWrite (base + 0x08) 4 v :: .busWrite (base + 0x00) 4 0x00000001#32 ::
        List.replicate (n + 1) (.busRead (base + 0x04) 4) ∧
    hostEvents base [n] [.decode pos lim] =
      .busWrite (base + 0x18) 4 pos :: .busWrite (base + 0x1C) 4 lim :: .busWrite (base + 0x00) 4 0x00000002#32 ::
        List.replicate (n + 1) (.busRead (base + 0x04) 4) ∧
    hostEvents base [n] [.redecode] =
      .busWrite (base + 0x00) 4 0x00000002#32 :: List.replicate (n + 1) (.busRead (base + 0x04) 4)

/-- 60_exceptions R183: a register write, a register read, an engine's turn and a reset of instance `n` are those of instance 0
on the machine with instance `n` in instance 0's place; and what that says of the whole machine, for every operation that
writes the instance in place and what the host read: instance `n` and the host's data are as it leaves them, and
everything else is as before. Which window an access reaches is log entry 14; an engine's turn or a reset of an instance
that does not exist is log entry 19. -/
def Obligations.EveryInstanceActsAlike : Prop :=
  ∀ (s : State) (n : Nat),
    step (s.withEvent (.engine n)) = atInst n (fun f => step (f.withEvent (.engine 0))) s ∧
    step (s.withEvent (.reset n)) = atInst n (fun f => step (f.withEvent (.reset 0))) s ∧
    ∀ i : Inst, s.instAt n = some i →
      (s.focus n).inst = i ∧ (s.focus n).buf = s.buf ∧ (s.focus n).plat = s.plat ∧
      (∀ (off : Nat) (w : Word), off < 0x100 → off % 4 = 0 → s.target (i.base + off) 4 = some n →
        step (s.withEvent (.busWrite (i.base + off) 4 w)) =
          atInst n (fun f => step (f.withEvent (.busWrite (f.inst.base + off) 4 w))) s ∧
        step (s.withEvent (.busRead (i.base + off) 4)) =
          atInst n (fun f => step (f.withEvent (.busRead (f.inst.base + off) 4))) s) ∧
      ∀ (g : State → Result) (j : Inst) (v : Word), g (s.focus n) = .next { s.focus n with inst := j, rdata := v } →
        ∃ t : State, atInst n g s = .next t ∧ t.instAt n = some j ∧ t.rdata = v ∧
          (∀ m : Nat, m ≠ n → t.instAt m = s.instAt m) ∧
          t.numInst = s.numInst ∧ t.plat = s.plat ∧ t.buf = s.buf ∧ t.input = s.input

/-- 42_decoder R147, R141: a DECODE that ended in TRUNCATED, host writes of more bytes at and after DEC_LIMIT, a raised DEC_LIMIT
and a second DECODE end as `dec` of the extended buffer, which still holds the bytes below the old limit, and in the state
that one DECODE of it would have left. No other instance decodes meanwhile, which could forbid the writes (R73). -/
def Obligations.RetryAfterTruncated : Prop :=
  ∀ (s : State) (writes : List (Nat × Byte)) (limit : Word) (m : Memory) (o : DecodeOutcome),
    Inv s → s.inst.status.busy = false → s.Served → s.decodeOutcome.kind = .truncated →
    (∀ i ∈ s.peers, i.op ≠ .dec) →
    (∀ c ∈ writes, s.inst.decLimit.toNat ≤ c.1 ∧ c.1 < 2 ^ s.plat.aw) →
    s.inst.decLimit.toNat ≤ limit.toNat → limit.toNat < 2 ^ s.plat.aw →
    (∀ a : Nat, s.inst.decPos.toNat ≤ a → a < limit.toNat → admits s.plat a = true) →
    m = writes.foldl (fun b c => b.write c.1 c.2) s.buf →
    o = dec m s.inst.decPos.toNat (limit.toNat - s.inst.decPos.toNat) →
    (∀ a : Nat, a < s.inst.decLimit.toNat → m.read a = s.buf.read a) ∧
    Host.Core.run Sys2Proof.core ((1 + s.decodeOutcome.steps) + (writes.length + (1 + (1 + o.steps))))
        { s with input :=
            (.busWrite s.inst.base 4 0x00000002#32 :: List.replicate s.decodeOutcome.steps (.engine 0)) ++
            (writes.map (fun c => .bufWrite c.1 c.2) ++
              (.busWrite (s.inst.base + 0x1C) 4 limit :: .busWrite s.inst.base 4 0x00000002#32 ::
                (List.replicate o.steps (.engine 0) ++ s.input))) } =
      .next { s with buf := m, inst := Inst.afterDecode o { s.inst with decLimit := limit } }

/-- 30_encoding R94, 10_state R27, 70_reset R199: a turn of a host that polls instance `n` reads STATUS and changes nothing in the
block; it goes round again exactly while BUSY = 1. Under every schedule in which the engine is weakly fair the poll ends,
with a read of s[0] = 0, unless a turn faults; the stuck case (60_exceptions R177) is excluded by a DECODE's buffer being
served. That the host goes on taking turns, and that no other host writes the window, is part of `FairSchedule` (log
entries 18, 23). -/
def Obligations.PollLoopsWhileBusy : Prop :=
  (∀ s : State, s.target (s.inst.base + 0x04) 4 = some 0) ∧
  ∀ (r : HostRun) (rest : List HostOp) (n : Nat) (i : Inst), r.machine.instAt n = some i →
    r.machine.target (i.base + 0x04) 4 = some n → r.todo = .poll (i.base + 0x04) :: rest →
    hostTurn r = .next
      { todo := if i.status.busy = true then r.todo else rest
        trace := r.trace ++ [(.busRead (i.base + 0x04) 4, i.status.word)]
        machine := { r.machine with rdata := i.status.word } } ∧
    ∀ sched : Schedule, Inv r.machine → FairSchedule n sched r → (i.op = .dec → (r.machine.focus n).Served) →
      ∃ m : Nat,
        (∃ f : Fault, runFor sched m r = .fault f) ∨
        ∃ (q : HostRun) (before : List (Event × Word)) (s : Word), runFor sched m r = .next q ∧ q.todo = rest ∧
          q.trace = before ++ [(.busRead (i.base + 0x04) 4, s)] ∧ s.getLsbD 0 = false

/-- 30_encoding R94, R95: a host program carried to its end, under any schedule of the other agents, has made its transactions in
program order, each poll looping on the reads that returned s[0] = 1 and ending with the first that returned s[0] = 0;
so they are its encoding for some loop counts. 60_exceptions R175, R174, 70_reset R199: under every fair schedule (log entries
18, 23) the run of a host program that drives instance `n` comes to its end, unless a turn faults or the engine is stuck, and
neither of these is an end. -/
def Obligations.HostProgramsTransactAndEnd : Prop :=
  (∀ (base : Nat) (program : List HostLine) (s : State) (turns : List Turn) (q : HostRun),
    hostRun turns (HostRun.start (hostOps base program) s) = .next q → q.todo = [] →
    Transacts (hostOps base program) q.trace ∧
    ∃ again : List Nat, q.trace.map (fun e => e.1) = hostEvents base again program) ∧
  (∀ (program : List HostLine) (s : State) (n : Nat) (i : Inst) (sched : Schedule), Inv s → s.instAt n = some i →
    s.target (i.base + 0x04) 4 = some n →
    FairSchedule n sched (HostRun.start (hostOps i.base program) s) →
    ∃ m : Nat,
      (∃ f : Fault, runFor sched m (HostRun.start (hostOps i.base program) s) = .fault f) ∨
      (∃ q : HostRun, runFor sched m (HostRun.start (hostOps i.base program) s) = .next q ∧
        (q.machine.focus n).Stuck) ∨
      FinalOutcome n (runFor sched m (HostRun.start (hostOps i.base program) s))) ∧
  (∀ (n : Nat) (f : Fault), ¬ FinalOutcome n (.fault f)) ∧
  ∀ (n : Nat) (q : HostRun), (q.machine.focus n).Stuck → n < q.machine.numInst → ¬ FinalOutcome n (.next q)
end

