-- ==== Sys2Proof/Laws/Memory.lean ====
section
/-! SUPPORT. BUF: a read after a write, and the canonical form that every memory operation keeps. -/

namespace Sys2Proof.Machine

theorem Memory.read_cons (c : Host.Cell) (m : Memory) (a : Nat) :
    Memory.read (c :: m) a = if a = c.1 then c.2 else m.read a := rfl

theorem Memory.wfFrom_cons {lo : Nat} {c : Host.Cell} {m : Memory} :
    Memory.wfFrom lo (c :: m) = true ↔ lo ≤ c.1 ∧ c.2 ≠ Memory.unlisted ∧ Memory.wfFrom (c.1 + 1) m = true := by
  simp [Memory.wfFrom, and_assoc]

theorem Memory.wfFrom_mono {m : Memory} : ∀ {lo lo' : Nat}, lo' ≤ lo → Memory.wfFrom lo m = true →
    Memory.wfFrom lo' m = true := by
  cases m with
  | nil => intro _ _ _ _; rfl
  | cons c m =>
    intro lo lo' h hm
    rw [Memory.wfFrom_cons] at hm ⊢
    exact ⟨h.trans hm.1, hm.2⟩

theorem Memory.read_below {m : Memory} : ∀ {lo a : Nat}, Memory.wfFrom lo m = true → a < lo →
    m.read a = Memory.unlisted := by
  induction m with
  | nil => intro _ _ _ _; rfl
  | cons c m ih =>
    intro lo a hm ha
    obtain ⟨h1, -, h3⟩ := Memory.wfFrom_cons.1 hm
    rw [Memory.read_cons, if_neg (by omega)]
    exact ih h3 (by omega)

/-- A read after a write to the same address gives the byte written. -/
theorem Memory.read_write_same {m : Memory} (a : Nat) (b : Byte) : ∀ {lo : Nat}, Memory.wfFrom lo m = true →
    (m.write a b).read a = b := by
  induction m with
  | nil =>
    intro _ _
    by_cases hb : b = Memory.unlisted <;> simp [Memory.write, hb, Memory.read]
  | cons c m ih =>
    intro lo hm
    obtain ⟨-, -, h3⟩ := Memory.wfFrom_cons.1 hm
    by_cases h1 : a < c.1
    · by_cases hb : b = Memory.unlisted
      · simp only [Memory.write, h1, hb, if_true]
        rw [Memory.read_cons, if_neg (by omega)]
        exact Memory.read_below h3 (by omega)
      · simp [Memory.write, h1, hb, Memory.read]
    · by_cases h2 : a = c.1
      · by_cases hb : b = Memory.unlisted
        · simp only [Memory.write, h2, hb, Nat.lt_irrefl, if_true, if_false]
          exact Memory.read_below h3 (Nat.lt_succ_self _)
        · simp [Memory.write, h2, hb, Memory.read]
      · simp only [Memory.write, if_neg h1, if_neg h2]
        rw [Memory.read_cons, if_neg h2]
        exact ih h3

/-- A write leaves every other address alone. -/
theorem Memory.read_write_other (m : Memory) {a c : Nat} (b : Byte) (h : c ≠ a) :
    (m.write a b).read c = m.read c := by
  induction m with
  | nil => by_cases hb : b = Memory.unlisted <;> simp [Memory.write, hb, Memory.read, h]
  | cons x m ih =>
    by_cases h1 : a < x.1
    · by_cases hb : b = Memory.unlisted <;> simp [Memory.write, h1, hb, Memory.read, h]
    · by_cases h2 : a = x.1
      · have : ¬ c = x.1 := by omega
        by_cases hb : b = Memory.unlisted <;> simp [Memory.write, h2, hb, Memory.read, this]
      · simp [Memory.write, h1, h2, Memory.read, ih]

theorem Memory.wfFrom_write {m : Memory} (a : Nat) (b : Byte) : ∀ {lo : Nat}, lo ≤ a → Memory.wfFrom lo m = true →
    Memory.wfFrom lo (m.write a b) = true := by
  induction m with
  | nil =>
    intro lo h _
    by_cases hb : b = Memory.unlisted <;> simp [Memory.write, hb, Memory.wfFrom, h]
  | cons c m ih =>
    intro lo h hm
    obtain ⟨h1, h2, h3⟩ := Memory.wfFrom_cons.1 hm
    by_cases g1 : a < c.1
    · by_cases hb : b = Memory.unlisted
      · simpa [Memory.write, g1, hb] using hm
      · simp only [Memory.write, g1, hb, if_true, if_false]
        exact Memory.wfFrom_cons.2 ⟨h, hb, Memory.wfFrom_cons.2 ⟨g1, h2, h3⟩⟩
    · by_cases g2 : a = c.1
      · by_cases hb : b = Memory.unlisted
        · simp only [Memory.write, g2, hb, Nat.lt_irrefl, if_true, if_false]
          exact Memory.wfFrom_mono (by omega) h3
        · simp only [Memory.write, g2, hb, Nat.lt_irrefl, if_true, if_false]
          exact Memory.wfFrom_cons.2 ⟨h1, hb, h3⟩
      · simp only [Memory.write, if_neg g1, if_neg g2]
        exact Memory.wfFrom_cons.2 ⟨h1, h2, ih (by omega) h3⟩

/-- A write keeps the canonical form. -/
theorem Memory.wf_write {m : Memory} (a : Nat) (b : Byte) (h : m.wf = true) : (m.write a b).wf = true :=
  Memory.wfFrom_write a b (Nat.zero_le _) h

theorem Memory.below_write {m : Memory} {n a : Nat} (b : Byte) (ha : a < n) (h : m.below n = true) :
    (m.write a b).below n = true := by
  induction m with
  | nil => by_cases hb : b = Memory.unlisted <;> simp [Memory.write, hb, Memory.below, ha]
  | cons c m ih =>
    simp only [Memory.below, Bool.and_eq_true, decide_eq_true_eq] at h
    by_cases g1 : a < c.1
    · by_cases hb : b = Memory.unlisted <;> simp [Memory.write, g1, hb, Memory.below, h, ha]
    · by_cases g2 : a = c.1
      · by_cases hb : b = Memory.unlisted <;> simp [Memory.write, g2, hb, Memory.below, h]
      · simp [Memory.write, g1, g2, Memory.below, h, ih h.2]

/-- The memory of the machine right after reset is in canonical form. -/
theorem Memory.wf_reset : State.reset.buf.wf = true := rfl

end Sys2Proof.Machine
end

