-- ==== Sys2Proof/Laws/State.lean ====
section
/-! SUPPORT. One lemma per field per update of the state, each true by unfolding one definition, so that no later proof
unfolds a record update. -/

namespace Sys2Proof.Machine

variable (i : Inst) (s : State)

/-! ### STATUS -/

@[simp] theorem Status.accepted_busy : Status.accepted.busy = true := rfl
@[simp] theorem Status.accepted_done : Status.accepted.done = false := rfl
@[simp] theorem Status.accepted_err : Status.accepted.err = .ok := rfl
@[simp] theorem Status.accepted_ign : Status.accepted.ign = false := rfl
@[simp] theorem Status.finished_busy (e : ErrKind) (st : Status) : (st.finished e).busy = false := rfl
@[simp] theorem Status.finished_done (e : ErrKind) (st : Status) : (st.finished e).done = true := rfl
@[simp] theorem Status.finished_err (e : ErrKind) (st : Status) : (st.finished e).err = e := rfl
@[simp] theorem Status.finished_ign (e : ErrKind) (st : Status) : (st.finished e).ign = st.ign := rfl
@[simp] theorem Status.illegal_busy (st : Status) : st.illegal.busy = st.busy := rfl
@[simp] theorem Status.illegal_done (st : Status) : st.illegal.done = true := rfl
@[simp] theorem Status.illegal_err (st : Status) : st.illegal.err = .illegalCmd := rfl
@[simp] theorem Status.illegal_ign (st : Status) : st.illegal.ign = false := rfl
@[simp] theorem Status.ignored_busy (st : Status) : st.ignored.busy = st.busy := rfl
@[simp] theorem Status.ignored_done (st : Status) : st.ignored.done = st.done := rfl
@[simp] theorem Status.ignored_err (st : Status) : st.ignored.err = st.err := rfl
@[simp] theorem Status.ignored_ign (st : Status) : st.ignored.ign = true := rfl

/-! ### Inst.acceptEncode -/

@[simp] theorem Inst.acceptEncode_base : i.acceptEncode.base = i.base := rfl
@[simp] theorem Inst.acceptEncode_status : i.acceptEncode.status = Status.accepted := rfl
@[simp] theorem Inst.acceptEncode_encIn : i.acceptEncode.encIn = i.encIn := rfl
@[simp] theorem Inst.acceptEncode_encOut0 : i.acceptEncode.encOut0 = 0#32 := rfl
@[simp] theorem Inst.acceptEncode_encOut1 : i.acceptEncode.encOut1 = 0#8 := rfl
@[simp] theorem Inst.acceptEncode_encLen : i.acceptEncode.encLen = 0#3 := rfl
@[simp] theorem Inst.acceptEncode_decPos : i.acceptEncode.decPos = i.decPos := rfl
@[simp] theorem Inst.acceptEncode_decLimit : i.acceptEncode.decLimit = i.decLimit := rfl
@[simp] theorem Inst.acceptEncode_decValue : i.acceptEncode.decValue = i.decValue := rfl
@[simp] theorem Inst.acceptEncode_decCount : i.acceptEncode.decCount = i.decCount := rfl
@[simp] theorem Inst.acceptEncode_op : i.acceptEncode.op = .enc := rfl
@[simp] theorem Inst.acceptEncode_k : i.acceptEncode.k = i.k := rfl
@[simp] theorem Inst.acceptEncode_acc : i.acceptEncode.acc = i.acc := rfl

/-! ### Inst.acceptDecode -/

@[simp] theorem Inst.acceptDecode_base : i.acceptDecode.base = i.base := rfl
@[simp] theorem Inst.acceptDecode_status : i.acceptDecode.status = Status.accepted := rfl
@[simp] theorem Inst.acceptDecode_encIn : i.acceptDecode.encIn = i.encIn := rfl
@[simp] theorem Inst.acceptDecode_encOut0 : i.acceptDecode.encOut0 = i.encOut0 := rfl
@[simp] theorem Inst.acceptDecode_encOut1 : i.acceptDecode.encOut1 = i.encOut1 := rfl
@[simp] theorem Inst.acceptDecode_encLen : i.acceptDecode.encLen = i.encLen := rfl
@[simp] theorem Inst.acceptDecode_decPos : i.acceptDecode.decPos = i.decPos := rfl
@[simp] theorem Inst.acceptDecode_decLimit : i.acceptDecode.decLimit = i.decLimit := rfl
@[simp] theorem Inst.acceptDecode_decValue : i.acceptDecode.decValue = 0#31 := rfl
@[simp] theorem Inst.acceptDecode_decCount : i.acceptDecode.decCount = 0#3 := rfl
@[simp] theorem Inst.acceptDecode_op : i.acceptDecode.op = .dec := rfl
@[simp] theorem Inst.acceptDecode_k : i.acceptDecode.k = 0 := rfl
@[simp] theorem Inst.acceptDecode_acc : i.acceptDecode.acc = 0#35 := rfl

/-! ### Inst.acceptIllegal -/

@[simp] theorem Inst.acceptIllegal_base : i.acceptIllegal.base = i.base := rfl
@[simp] theorem Inst.acceptIllegal_status : i.acceptIllegal.status = i.status.illegal := rfl
@[simp] theorem Inst.acceptIllegal_encIn : i.acceptIllegal.encIn = i.encIn := rfl
@[simp] theorem Inst.acceptIllegal_encOut0 : i.acceptIllegal.encOut0 = i.encOut0 := rfl
@[simp] theorem Inst.acceptIllegal_encOut1 : i.acceptIllegal.encOut1 = i.encOut1 := rfl
@[simp] theorem Inst.acceptIllegal_encLen : i.acceptIllegal.encLen = i.encLen := rfl
@[simp] theorem Inst.acceptIllegal_decPos : i.acceptIllegal.decPos = i.decPos := rfl
@[simp] theorem Inst.acceptIllegal_decLimit : i.acceptIllegal.decLimit = i.decLimit := rfl
@[simp] theorem Inst.acceptIllegal_decValue : i.acceptIllegal.decValue = i.decValue := rfl
@[simp] theorem Inst.acceptIllegal_decCount : i.acceptIllegal.decCount = i.decCount := rfl
@[simp] theorem Inst.acceptIllegal_op : i.acceptIllegal.op = i.op := rfl
@[simp] theorem Inst.acceptIllegal_k : i.acceptIllegal.k = i.k := rfl
@[simp] theorem Inst.acceptIllegal_acc : i.acceptIllegal.acc = i.acc := rfl

/-! ### Inst.ignoredWrite -/

@[simp] theorem Inst.ignoredWrite_base : i.ignoredWrite.base = i.base := rfl
@[simp] theorem Inst.ignoredWrite_status : i.ignoredWrite.status = i.status.ignored := rfl
@[simp] theorem Inst.ignoredWrite_encIn : i.ignoredWrite.encIn = i.encIn := rfl
@[simp] theorem Inst.ignoredWrite_encOut0 : i.ignoredWrite.encOut0 = i.encOut0 := rfl
@[simp] theorem Inst.ignoredWrite_encOut1 : i.ignoredWrite.encOut1 = i.encOut1 := rfl
@[simp] theorem Inst.ignoredWrite_encLen : i.ignoredWrite.encLen = i.encLen := rfl
@[simp] theorem Inst.ignoredWrite_decPos : i.ignoredWrite.decPos = i.decPos := rfl
@[simp] theorem Inst.ignoredWrite_decLimit : i.ignoredWrite.decLimit = i.decLimit := rfl
@[simp] theorem Inst.ignoredWrite_decValue : i.ignoredWrite.decValue = i.decValue := rfl
@[simp] theorem Inst.ignoredWrite_decCount : i.ignoredWrite.decCount = i.decCount := rfl
@[simp] theorem Inst.ignoredWrite_op : i.ignoredWrite.op = i.op := rfl
@[simp] theorem Inst.ignoredWrite_k : i.ignoredWrite.k = i.k := rfl
@[simp] theorem Inst.ignoredWrite_acc : i.ignoredWrite.acc = i.acc := rfl

/-! ### Inst.complete -/

@[simp] theorem Inst.complete_base (e : ErrKind) : (i.complete e).base = i.base := rfl
@[simp] theorem Inst.complete_status (e : ErrKind) : (i.complete e).status = i.status.finished e := rfl
@[simp] theorem Inst.complete_encIn (e : ErrKind) : (i.complete e).encIn = i.encIn := rfl
@[simp] theorem Inst.complete_encOut0 (e : ErrKind) : (i.complete e).encOut0 = i.encOut0 := rfl
@[simp] theorem Inst.complete_encOut1 (e : ErrKind) : (i.complete e).encOut1 = i.encOut1 := rfl
@[simp] theorem Inst.complete_encLen (e : ErrKind) : (i.complete e).encLen = i.encLen := rfl
@[simp] theorem Inst.complete_decPos (e : ErrKind) : (i.complete e).decPos = i.decPos := rfl
@[simp] theorem Inst.complete_decLimit (e : ErrKind) : (i.complete e).decLimit = i.decLimit := rfl
@[simp] theorem Inst.complete_decValue (e : ErrKind) : (i.complete e).decValue = i.decValue := rfl
@[simp] theorem Inst.complete_decCount (e : ErrKind) : (i.complete e).decCount = i.decCount := rfl
@[simp] theorem Inst.complete_op (e : ErrKind) : (i.complete e).op = .idle := rfl
@[simp] theorem Inst.complete_k (e : ErrKind) : (i.complete e).k = 0 := rfl
@[simp] theorem Inst.complete_acc (e : ErrKind) : (i.complete e).acc = 0#35 := rfl

/-! ### Inst.continueWith -/

@[simp] theorem Inst.continueWith_base (p : BitVec 7) : (i.continueWith p).base = i.base := rfl
@[simp] theorem Inst.continueWith_status (p : BitVec 7) : (i.continueWith p).status = i.status := rfl
@[simp] theorem Inst.continueWith_encIn (p : BitVec 7) : (i.continueWith p).encIn = i.encIn := rfl
@[simp] theorem Inst.continueWith_encOut0 (p : BitVec 7) : (i.continueWith p).encOut0 = i.encOut0 := rfl
@[simp] theorem Inst.continueWith_encOut1 (p : BitVec 7) : (i.continueWith p).encOut1 = i.encOut1 := rfl
@[simp] theorem Inst.continueWith_encLen (p : BitVec 7) : (i.continueWith p).encLen = i.encLen := rfl
@[simp] theorem Inst.continueWith_decPos (p : BitVec 7) : (i.continueWith p).decPos = i.decPos := rfl
@[simp] theorem Inst.continueWith_decLimit (p : BitVec 7) : (i.continueWith p).decLimit = i.decLimit := rfl
@[simp] theorem Inst.continueWith_decValue (p : BitVec 7) : (i.continueWith p).decValue = i.decValue := rfl
@[simp] theorem Inst.continueWith_decCount (p : BitVec 7) : (i.continueWith p).decCount = i.decCount := rfl
@[simp] theorem Inst.continueWith_op (p : BitVec 7) : (i.continueWith p).op = i.op := rfl
@[simp] theorem Inst.continueWith_k (p : BitVec 7) : (i.continueWith p).k = i.k + 1 := rfl
@[simp] theorem Inst.continueWith_acc (p : BitVec 7) : (i.continueWith p).acc = i.accWith p := rfl

/-! ### Inst.failDecode -/

@[simp] theorem Inst.failDecode_base (e : ErrKind) (n : Nat) : (i.failDecode e n).base = i.base := rfl
@[simp] theorem Inst.failDecode_status (e : ErrKind) (n : Nat) : (i.failDecode e n).status = i.status.finished e := rfl
@[simp] theorem Inst.failDecode_encIn (e : ErrKind) (n : Nat) : (i.failDecode e n).encIn = i.encIn := rfl
@[simp] theorem Inst.failDecode_encOut0 (e : ErrKind) (n : Nat) : (i.failDecode e n).encOut0 = i.encOut0 := rfl
@[simp] theorem Inst.failDecode_encOut1 (e : ErrKind) (n : Nat) : (i.failDecode e n).encOut1 = i.encOut1 := rfl
@[simp] theorem Inst.failDecode_encLen (e : ErrKind) (n : Nat) : (i.failDecode e n).encLen = i.encLen := rfl
@[simp] theorem Inst.failDecode_decPos (e : ErrKind) (n : Nat) : (i.failDecode e n).decPos = i.decPos := rfl
@[simp] theorem Inst.failDecode_decLimit (e : ErrKind) (n : Nat) : (i.failDecode e n).decLimit = i.decLimit := rfl
@[simp] theorem Inst.failDecode_decValue (e : ErrKind) (n : Nat) : (i.failDecode e n).decValue = i.decValue := rfl
@[simp] theorem Inst.failDecode_decCount (e : ErrKind) (n : Nat) : (i.failDecode e n).decCount = BitVec.ofNat 3 n := rfl
@[simp] theorem Inst.failDecode_op (e : ErrKind) (n : Nat) : (i.failDecode e n).op = .idle := rfl
@[simp] theorem Inst.failDecode_k (e : ErrKind) (n : Nat) : (i.failDecode e n).k = 0 := rfl
@[simp] theorem Inst.failDecode_acc (e : ErrKind) (n : Nat) : (i.failDecode e n).acc = 0#35 := rfl

/-! ### Inst.succeedDecode -/

@[simp] theorem Inst.succeedDecode_base (pl : Platform) (p : BitVec 7) : (i.succeedDecode pl p).base = i.base := rfl
@[simp] theorem Inst.succeedDecode_status (pl : Platform) (p : BitVec 7) : (i.succeedDecode pl p).status = i.status.finished .ok := rfl
@[simp] theorem Inst.succeedDecode_encIn (pl : Platform) (p : BitVec 7) : (i.succeedDecode pl p).encIn = i.encIn := rfl
@[simp] theorem Inst.succeedDecode_encOut0 (pl : Platform) (p : BitVec 7) : (i.succeedDecode pl p).encOut0 = i.encOut0 := rfl
@[simp] theorem Inst.succeedDecode_encOut1 (pl : Platform) (p : BitVec 7) : (i.succeedDecode pl p).encOut1 = i.encOut1 := rfl
@[simp] theorem Inst.succeedDecode_encLen (pl : Platform) (p : BitVec 7) : (i.succeedDecode pl p).encLen = i.encLen := rfl
@[simp] theorem Inst.succeedDecode_decPos (pl : Platform) (p : BitVec 7) : (i.succeedDecode pl p).decPos = truncAw pl (i.decPos + BitVec.ofNat 32 (i.k.val + 1)) := rfl
@[simp] theorem Inst.succeedDecode_decLimit (pl : Platform) (p : BitVec 7) : (i.succeedDecode pl p).decLimit = i.decLimit := rfl
@[simp] theorem Inst.succeedDecode_decValue (pl : Platform) (p : BitVec 7) : (i.succeedDecode pl p).decValue = (i.accWith p).setWidth 31 := rfl
@[simp] theorem Inst.succeedDecode_decCount (pl : Platform) (p : BitVec 7) : (i.succeedDecode pl p).decCount = BitVec.ofNat 3 (i.k.val + 1) := rfl
@[simp] theorem Inst.succeedDecode_op (pl : Platform) (p : BitVec 7) : (i.succeedDecode pl p).op = .idle := rfl
@[simp] theorem Inst.succeedDecode_k (pl : Platform) (p : BitVec 7) : (i.succeedDecode pl p).k = 0 := rfl
@[simp] theorem Inst.succeedDecode_acc (pl : Platform) (p : BitVec 7) : (i.succeedDecode pl p).acc = 0#35 := rfl

/-! ### The machine -/

@[simp] theorem State.setInst_plat : (s.setInst i).plat = s.plat := rfl
@[simp] theorem State.setInst_buf : (s.setInst i).buf = s.buf := rfl
@[simp] theorem State.setInst_inst : (s.setInst i).inst = i := rfl
@[simp] theorem State.setInst_peers : (s.setInst i).peers = s.peers := rfl
@[simp] theorem State.setInst_input : (s.setInst i).input = s.input := rfl
@[simp] theorem State.setInst_rdata : (s.setInst i).rdata = s.rdata := rfl
@[simp] theorem State.withEvent_plat (ev : Event) : (s.withEvent ev).plat = s.plat := rfl
@[simp] theorem State.withEvent_buf (ev : Event) : (s.withEvent ev).buf = s.buf := rfl
@[simp] theorem State.withEvent_inst (ev : Event) : (s.withEvent ev).inst = s.inst := rfl
@[simp] theorem State.withEvent_peers (ev : Event) : (s.withEvent ev).peers = s.peers := rfl
@[simp] theorem State.withEvent_input (ev : Event) : (s.withEvent ev).input = ev :: s.input := rfl
@[simp] theorem State.withEvent_rdata (ev : Event) : (s.withEvent ev).rdata = s.rdata := rfl
@[simp] theorem State.withTurns_plat (n : Nat) : (s.withTurns n).plat = s.plat := rfl
@[simp] theorem State.withTurns_buf (n : Nat) : (s.withTurns n).buf = s.buf := rfl
@[simp] theorem State.withTurns_inst (n : Nat) : (s.withTurns n).inst = s.inst := rfl
@[simp] theorem State.withTurns_peers (n : Nat) : (s.withTurns n).peers = s.peers := rfl
@[simp] theorem State.withTurns_input (n : Nat) : (s.withTurns n).input = List.replicate n (.engine 0) ++ s.input := rfl
@[simp] theorem State.withTurns_rdata (n : Nat) : (s.withTurns n).rdata = s.rdata := rfl

@[simp] theorem State.setInst_self : s.setInst s.inst = s := rfl
@[simp] theorem State.setInst_setInst (j : Inst) : (s.setInst j).setInst i = s.setInst i := rfl

end Sys2Proof.Machine
end

