-- ==== Sys2Proof/Laws/Machine.lean ====
section
/-! SUPPORT. Reaching one instance among several, and what each shared operation can answer. -/

namespace Sys2Proof.Machine

/-! ### focus -/

@[simp] theorem State.focus_zero (s : State) : s.focus 0 = s := rfl

@[simp] theorem State.focus_plat (n : Nat) (s : State) : (s.focus n).plat = s.plat := by
  unfold State.focus; split <;> [rfl; (split <;> rfl)]

@[simp] theorem State.focus_buf (n : Nat) (s : State) : (s.focus n).buf = s.buf := by
  unfold State.focus; split <;> [rfl; (split <;> rfl)]

@[simp] theorem State.focus_input (n : Nat) (s : State) : (s.focus n).input = s.input := by
  unfold State.focus; split <;> [rfl; (split <;> rfl)]

@[simp] theorem State.focus_rdata (n : Nat) (s : State) : (s.focus n).rdata = s.rdata := by
  unfold State.focus; split <;> [rfl; (split <;> rfl)]

@[simp] theorem State.focus_numInst (n : Nat) (s : State) : (s.focus n).numInst = s.numInst := by
  unfold State.focus; split <;> [rfl; (split <;> simp [State.numInst])]

@[simp] theorem State.instAt_zero (s : State) : s.instAt 0 = some s.inst := rfl

theorem State.instAt_succ (s : State) (m : Nat) : s.instAt (m + 1) = s.peers[m]? := rfl

theorem State.focus_succ {s : State} {m : Nat} {i : Inst} (h : s.peers[m]? = some i) :
    s.focus (m + 1) = { s with inst := i, peers := s.peers.set m s.inst } := by
  simp [State.focus, h]

theorem State.lt_numInst_of_instAt {s : State} {n : Nat} {i : Inst} (h : s.instAt n = some i) : n < s.numInst := by
  obtain ⟨h, -⟩ := List.getElem?_eq_some_iff.1 h
  simpa [State.insts, State.numInst] using h

theorem State.instAt_of_lt {s : State} {n : Nat} (h : n < s.numInst) : ∃ i, s.instAt n = some i := by
  refine ⟨s.insts[n]'(by simpa [State.insts, State.numInst] using h), ?_⟩
  simp [State.instAt]

/-- Instance `n` is in instance 0's place. -/
theorem State.focus_inst {s : State} {n : Nat} {i : Inst} (h : s.instAt n = some i) : (s.focus n).inst = i := by
  cases n with
  | zero => simpa using h
  | succ m => rw [State.focus_succ h]

/-- Exchanging twice changes nothing, whatever the exchanged instance has become meanwhile. -/
theorem State.focus_focus (n : Nat) (s : State) : (s.focus n).focus n = s := by
  cases n with
  | zero => rfl
  | succ m =>
    cases h : s.peers[m]? with
    | none => simp [State.focus, h]
    | some i =>
      have hm : m < s.peers.length := (List.getElem?_eq_some_iff.1 h).1
      have hi : s.peers[m] = i := (List.getElem?_eq_some_iff.1 h).2
      subst hi
      simp [State.focus, hm]

/-- An update of the focused machine, seen from outside: instance `n` is `j`, and the rest is `t`'s. -/
theorem State.focus_instAt_self {t : State} {n : Nat} (h : n < t.numInst) : (t.focus n).instAt n = some t.inst := by
  cases n with
  | zero => rfl
  | succ m =>
    have hm : m < t.peers.length := by simpa [State.numInst] using h
    rw [State.focus_succ (List.getElem?_eq_getElem hm)]
    simp [State.instAt_succ, hm]

theorem State.focus_instAt_other {t : State} {n m : Nat} (hm : m ≠ n) (h0 : m ≠ 0) : (t.focus n).instAt m = t.instAt m := by
  cases n with
  | zero => rfl
  | succ n =>
    cases h : t.peers[n]? with
    | none => simp [State.focus, h]
    | some i =>
      rw [State.focus_succ h]
      obtain ⟨m, rfl⟩ := Nat.exists_eq_succ_of_ne_zero h0
      have : n ≠ m := by omega
      simp [State.instAt_succ, this]

theorem State.focus_instAt_zero {t : State} {n : Nat} (h : n < t.numInst) : (t.focus n).instAt 0 = t.instAt n := by
  obtain ⟨i, hi⟩ := State.instAt_of_lt h
  rw [State.instAt_zero, State.focus_inst hi, hi]

/-- A change of the focused machine's instance alone changes instance `n` alone. -/
theorem State.instAt_focus_setInst {s : State} {n m : Nat} (j : Inst) (h : n < s.numInst) :
    (((s.focus n).setInst j).focus n).instAt m = if m = n then some j else s.instAt m := by
  have hn : n < ((s.focus n).setInst j).numInst := by
    have := State.focus_numInst n s
    simp only [State.numInst, State.setInst_peers] at this ⊢
    simp only [State.numInst] at h
    omega
  by_cases hm : m = n
  · subst hm
    rw [State.focus_instAt_self hn]
    simp
  · rw [if_neg hm]
    by_cases h0 : m = 0
    · subst h0
      rw [State.focus_instAt_zero hn]
      obtain ⟨n', rfl⟩ := Nat.exists_eq_succ_of_ne_zero (Ne.symm hm)
      have e : ((s.focus (n' + 1)).setInst j).instAt (n' + 1) = (s.focus (n' + 1)).instAt (n' + 1) := rfl
      rw [Nat.succ_eq_add_one, e, State.focus_instAt_self h, State.instAt_zero]
    · rw [State.focus_instAt_other hm h0]
      obtain ⟨m', rfl⟩ := Nat.exists_eq_succ_of_ne_zero h0
      have e : ((s.focus n).setInst j).instAt (m' + 1) = (s.focus n).instAt (m' + 1) := rfl
      rw [Nat.succ_eq_add_one, e, State.focus_instAt_other hm h0]

@[simp] theorem onNext_focus_zero (r : Result) : onNext (State.focus 0) r = r := by
  cases r <;> rfl

/-- On instance 0, `atInst` adds nothing. -/
@[simp] theorem atInst_zero (f : State → Result) (s : State) : atInst 0 f s = f s := by
  simp [atInst, State.numInst]

theorem onNext_eq_next {f : State → State} {r : Result} {t : State} (h : onNext f r = .next t) :
    ∃ u, r = .next u ∧ t = f u := by
  cases r with
  | next u => exact ⟨u, rfl, by simpa [onNext] using h.symm⟩
  | fault r => cases h
  | refused r => cases h

/-- `atInst n` asks only what the operation does to the focused machine. -/
theorem atInst_congr {n : Nat} {f g : State → Result} {s : State} (h : f (s.focus n) = g (s.focus n)) :
    atInst n f s = atInst n g s := by
  unfold atInst
  rw [h]

/-- What the host read is no part of any window. -/
theorem State.focus_withRdata (s : State) (n : Nat) (v : Word) :
    ({ s with rdata := v } : State).focus n = { s.focus n with rdata := v } := by
  unfold State.focus
  split
  · rfl
  · dsimp only
    split <;> rfl

/-! ### What is left of the buffer -/

/-- avail as a truncated difference. -/
theorem Inst.avail_eq (i : Inst) : i.avail = i.decLimit.toNat - i.decPos.toNat := by
  unfold Inst.avail
  by_cases h : i.decPos.toNat ≤ i.decLimit.toNat
  · rw [if_pos h]
  · rw [if_neg h]; omega

/-! ### The shared operations of the meanings -/

/-- A command always completes its step, and writes instance 0 alone. -/
theorem onCommand_eq (f : Inst → Inst) (s : State) :
    onCommand f s = .next (s.setInst (if s.inst.status.busy then s.inst.ignoredWrite else f s.inst)) := rfl

theorem onCommand_idle {s : State} (f : Inst → Inst) (h : s.inst.status.busy = false) :
    onCommand f s = .next (s.setInst (f s.inst)) := by simp [onCommand, h]

theorem onCommand_busy {s : State} (f : Inst → Inst) (h : s.inst.status.busy = true) :
    onCommand f s = .next (s.setInst s.inst.ignoredWrite) := by simp [onCommand, h]

theorem onDecoder_fits {at_ : Fin 5 → Bool} {s : State} (f : Inst → Inst) (h : s.inst.op = .dec)
    (hk : at_ s.inst.k = true) : onDecoder at_ f s = .next (s.setInst (f s.inst)) := by simp [onDecoder, h, hk]

/-- All a byte class's meaning can do. -/
theorem onDecoder_cases (at_ : Fin 5 → Bool) (f : Inst → Inst) (s : State) :
    (s.inst.op = .dec ∧ at_ s.inst.k = true ∧ onDecoder at_ f s = .next (s.setInst (f s.inst))) ∨
    ((s.inst.op ≠ .dec ∨ at_ s.inst.k = false) ∧ onDecoder at_ f s = .refused .noEngineStep) := by
  unfold onDecoder
  by_cases h : s.inst.op = .dec <;> cases hk : at_ s.inst.k <;> simp [h]

end Sys2Proof.Machine
end

