-- ==== Sys2Proof/Laws/Exec.lean ====
section
/-! SUPPORT. Everything a meaning can do: which instance it leaves, and where it stops. -/

namespace Sys2Proof.Machine

/-! ### Decoding finds a class where it stands -/

theorem earlyIndex_iff (k : Fin 5) : earlyIndex k = true ↔ k.val < 4 := by simp [earlyIndex]

theorem lastIndex_iff (k : Fin 5) : lastIndex k = true ↔ k.val = 4 := by simp [lastIndex]

/-- The decoder's own class of a byte is one found at that index. -/
theorem decodeByte_fitsAt (k : Fin 5) (b : Byte) : (decodeByte k b).fitsAt k = true := by
  unfold decodeByte
  split
  · split <;> simpa [Instr.fitsAt]
  · have : k.val = 4 := by omega
    split
    · simpa [Instr.fitsAt]
    · split <;> simpa [Instr.fitsAt]

/-- What the decoder fetches is a byte class found at its own index. -/
theorem fetch_fitsAt {s : State} {i : Instr} (h : s.fetch = some i) : i.fitsAt s.inst.k = true := by
  unfold State.fetch State.nextByte at h
  split at h
  · cases h; rfl
  · split at h
    · cases h; exact decodeByte_fitsAt _ _
    · cases h

/-- What the decoder fetches where no byte remains. -/
theorem fetch_noByte {s : State} (h : s.inst.avail ≤ s.inst.k.val) : s.fetch = some .noByte := by
  simp [State.fetch, State.nextByte, h, decodeInstr]

/-- What the decoder fetches where a byte remains and the platform serves it. -/
theorem fetch_byte {s : State} (h : s.inst.k.val < s.inst.avail) (ha : admits s.plat s.byteAddr = true) :
    s.fetch = some (decodeByte s.inst.k (s.buf.read s.byteAddr)) := by
  simp [State.fetch, State.nextByte, Nat.not_le.2 h, ha, decodeInstr]

/-- Where the platform does not serve the byte, the engine is stuck. -/
theorem fetch_stuck {s : State} (h : s.inst.k.val < s.inst.avail) (ha : admits s.plat s.byteAddr = false) :
    s.fetch = none := by
  simp [State.fetch, State.nextByte, Nat.not_le.2 h, ha]

/-! ### exec -/

/-- The six byte classes. -/
def isByteClass (i : Instr) : Prop := ∀ w, encodeInstr i ≠ .ctrl w

/-- A meaning answers a next state with nothing but instance 0 changed, or refuses a byte class where the engine has no such
step. -/
theorem exec_cases (i : Instr) (s : State) :
    (∃ j, exec i s = .next (s.setInst j)) ∨
    (isByteClass i ∧ (s.inst.op ≠ .dec ∨ i.fitsAt s.inst.k = false) ∧ exec i s = .refused .noEngineStep) := by
  cases i with
  | nop => exact .inl ⟨_, rfl⟩
  | encode => exact .inl ⟨_, rfl⟩
  | decode => exact .inl ⟨_, rfl⟩
  | illegalCmd3 => exact .inl ⟨_, rfl⟩
  | illegalZ w => exact .inl ⟨_, rfl⟩
  | cont p =>
    obtain ⟨-, -, h⟩ | ⟨h, h'⟩ := onDecoder_cases earlyIndex (Inst.continueWith p) s
    · exact .inl ⟨_, h⟩
    · exact .inr ⟨nofun, h, h'⟩
  | term p =>
    obtain ⟨-, -, h⟩ | ⟨h, h'⟩ := onDecoder_cases earlyIndex (Inst.succeedDecode s.plat p) s
    · exact .inl ⟨_, h⟩
    · exact .inr ⟨nofun, h, h'⟩
  | cont5 p =>
    obtain ⟨-, -, h⟩ | ⟨h, h'⟩ := onDecoder_cases lastIndex (Inst.failDecode .malformed 5) s
    · exact .inl ⟨_, h⟩
    · exact .inr ⟨nofun, h, h'⟩
  | term5 p =>
    obtain ⟨-, -, h⟩ | ⟨h, h'⟩ := onDecoder_cases lastIndex (Inst.succeedDecode s.plat (p.setWidth 7)) s
    · exact .inl ⟨_, h⟩
    · exact .inr ⟨nofun, h, h'⟩
  | ovr5 p =>
    obtain ⟨-, -, h⟩ | ⟨h, h'⟩ := onDecoder_cases lastIndex (Inst.failDecode .outOfRange 5) s
    · exact .inl ⟨_, h⟩
    · exact .inr ⟨nofun, h, h'⟩
  | noByte =>
    obtain ⟨-, -, h⟩ | ⟨h, h'⟩ := onDecoder_cases anyIndex (Inst.failDecode .truncated s.inst.k.val) s
    · exact .inl ⟨_, h⟩
    · exact .inr ⟨nofun, .inl (h.resolve_right (by simp [anyIndex])), h'⟩

/-- A next state of a meaning differs in instance 0 alone. -/
theorem exec_setInst {i : Instr} {s t : State} (h : exec i s = .next t) : t = s.setInst t.inst := by
  obtain ⟨j, hj⟩ | ⟨-, -, hj⟩ := exec_cases i s
  · rw [hj] at h; cases h; rfl
  · rw [hj] at h; cases h

/-- What the decoder fetches while it runs has its effect. -/
theorem exec_fetched {i : Instr} {s : State} (hop : s.inst.op = .dec) (h : s.fetch = some i) :
    ∃ j, exec i s = .next (s.setInst j) := by
  obtain hj | ⟨-, h1, -⟩ := exec_cases i s
  · exact hj
  · simp [hop, fetch_fitsAt h] at h1

/-! ### The engine's turn -/

/-- All an engine's turn can do: nothing, the encoder step, or the class of the byte it fetches. -/
theorem engineTurn_cases (s : State) :
    engineTurn s = .next s ∨
    (s.inst.status.busy = true ∧ s.inst.op = .enc ∧ engineTurn s = .next (s.setInst s.inst.encoderStep)) ∨
    (s.inst.status.busy = true ∧ s.inst.op = .dec ∧
      ∃ i j, s.fetch = some i ∧ engineTurn s = exec i s ∧ exec i s = .next (s.setInst j)) := by
  unfold engineTurn
  cases hb : s.inst.status.busy with
  | false => exact .inl (by simp)
  | true =>
    cases ho : s.inst.op with
    | idle => exact .inl (by simp)
    | enc => exact .inr (.inl ⟨rfl, rfl, by simp⟩)
    | dec =>
      cases hf : s.fetch with
      | none => exact .inl (by simp)
      | some i =>
        obtain ⟨j, hj⟩ := exec_fetched ho hf
        exact .inr (.inr ⟨rfl, rfl, i, j, rfl, by simp, hj⟩)

theorem engineTurn_idle {s : State} (h : s.inst.status.busy = false) : engineTurn s = .next s := by
  simp [engineTurn, h]

theorem engineTurn_enc {s : State} (h : s.inst.status.busy = true) (ho : s.inst.op = .enc) :
    engineTurn s = .next (s.setInst s.inst.encoderStep) := by simp [engineTurn, h, ho]

theorem engineTurn_dec {s : State} {i : Instr} (h : s.inst.status.busy = true) (ho : s.inst.op = .dec)
    (hf : s.fetch = some i) : engineTurn s = exec i s := by simp [engineTurn, h, ho, hf]

theorem engineTurn_stuck {s : State} (ho : s.inst.op = .dec) (hf : s.fetch = none) :
    engineTurn s = .next s := by
  cases h : s.inst.status.busy <;> simp [engineTurn, h, ho, hf]

/-- An engine's turn always has a next state, with instance 0 alone changed. -/
theorem engineTurn_setInst (s : State) : ∃ j, engineTurn s = .next (s.setInst j) := by
  obtain h | ⟨-, -, h⟩ | ⟨-, -, i, j, -, h, hj⟩ := engineTurn_cases s
  · exact ⟨s.inst, h⟩
  · exact ⟨_, h⟩
  · exact ⟨j, h.trans hj⟩

end Sys2Proof.Machine
end

