-- ==== Sys2Proof/Laws/Codec.lean ====
section
/-! SUPPORT. The arithmetic of wire bytes, the accumulator, the packed output and the cursor, and the engine steps' equations. -/

namespace Sys2Proof.Machine

/-! ### Wire bytes -/

@[simp] theorem payload_wireByte (c : BitVec 1) (p : BitVec 7) : payload (wireByte c p) = p := by
  revert c p; decide

@[simp] theorem continues_wireByte_one (p : BitVec 7) : continues (wireByte 1#1 p) = true := by
  revert p; decide

@[simp] theorem continues_wireByte_zero (p : BitVec 7) : continues (wireByte 0#1 p) = false := by
  revert p; decide

/-- A byte is its continuation bit and its payload. -/
theorem byte_eq (x : Byte) : x = BitVec.ofNat 8 ((payload x).toNat + if continues x then 0x80 else 0) := by
  revert x; decide

/-- On a payload of three bits, TERM5's operand is the whole payload. -/
theorem payload_eq_low (b : Byte) (h : ¬ 7 < (payload b).toNat) : (b.extractLsb' 0 3).setWidth 7 = payload b := by
  revert b; decide

/-- zext_35 of a payload, written as zeros in front of it. -/
theorem setWidth35_payload (p : BitVec 7) : p.setWidth 35 = (0#28 ++ p : BitVec 35) := by revert p; decide

theorem setWidth35_low (p : BitVec 3) : (p.setWidth 7).setWidth 35 = (0#32 ++ p : BitVec 35) := by revert p; decide

/-! ### The accumulator -/

/-- ORing the payload of index `n` into an accumulator of the payloads before it adds it (30_encoding R85). -/
theorem or_shift_toNat {n : Nat} (a : BitVec 35) (p : BitVec 7) (h : a.toNat < 2 ^ (7 * n)) (hn : n ≤ 4) :
    (a ||| (p.setWidth 35 <<< (7 * n))).toNat = a.toNat + p.toNat * 2 ^ (7 * n) := by
  have hp := p.isLt
  have e : (p.setWidth 35).toNat = p.toNat := by simp; omega
  have hs : p.toNat <<< (7 * n) % 2 ^ 35 = p.toNat <<< (7 * n) := by
    apply Nat.mod_eq_of_lt
    rw [Nat.shiftLeft_eq]
    calc p.toNat * 2 ^ (7 * n) < 2 ^ 7 * 2 ^ (7 * n) := Nat.mul_lt_mul_of_pos_right hp (by positivity)
      _ = 2 ^ (7 + 7 * n) := by rw [Nat.pow_add]
      _ ≤ 2 ^ 35 := Nat.pow_le_pow_right (by omega) (by omega)
  rw [BitVec.toNat_or, BitVec.toNat_shiftLeft, e, Nat.or_comm, hs, ← Nat.shiftLeft_add_eq_or_of_lt h,
    Nat.shiftLeft_eq]
  omega

/-- With the payloads of indices 0 .. K-1 in ACC, one more leaves those of 0 .. K. -/
theorem Inst.accWith_lt {i : Inst} (p : BitVec 7) (h : i.acc.toNat < 2 ^ (7 * i.k.val)) :
    (i.accWith p).toNat < 2 ^ (7 * (i.k.val + 1)) := by
  have hk := i.k.isLt
  have hp := p.isLt
  have e : 2 ^ (7 * (i.k.val + 1)) = 128 * 2 ^ (7 * i.k.val) := by rw [Nat.mul_add, Nat.pow_add]; ring
  unfold Inst.accWith
  rw [or_shift_toNat i.acc p h (by omega), e]
  nlinarith [Nat.two_pow_pos (7 * i.k.val)]

/-- K + 1 below the last index is no wrap. -/
theorem Inst.continueWith_k_val {i : Inst} (p : BitVec 7) (h : i.k.val < 4) : (i.continueWith p).k.val = i.k.val + 1 := by
  have e : (i.continueWith p).k = i.k + 1 := rfl
  rw [e, Fin.val_add_one_of_lt (by rw [Fin.lt_def]; simpa using h)]

/-! ### The pure functions, one round at a time -/

theorem decLoop_succ (b : Memory) (pos avail fuel k : Nat) (acc : BitVec 35) :
    decLoop b pos avail (fuel + 1) k acc =
      if avail ≤ k then .truncated k
      else if continues (b.read (pos + k)) then
        decLoop b pos avail fuel (k + 1) (acc ||| ((payload (b.read (pos + k))).setWidth 35 <<< (7 * k)))
      else if k = 4 ∧ 7 < (payload (b.read (pos + k))).toNat then .outOfRange 5
      else .ok ((acc ||| ((payload (b.read (pos + k))).setWidth 35 <<< (7 * k))).setWidth 31) (k + 1) := rfl

theorem encLoop_succ (fuel : Nat) (r : BitVec 31) :
    encLoop (fuel + 1) r =
      if r >>> 7 = 0#31 then [wireByte 0#1 (r.extractLsb' 0 7)]
      else wireByte 1#1 (r.extractLsb' 0 7) :: encLoop fuel (r >>> 7) := rfl

/-! ### The encoder's step -/

theorem Inst.encoderStep_outOfRange {i : Inst} (h : i.encIn.getLsbD 31 = true) :
    i.encoderStep = i.complete .outOfRange := by rw [Inst.encoderStep, if_pos h]

theorem Inst.encoderStep_ok {i : Inst} (h : i.encIn.getLsbD 31 = false) :
    i.encoderStep = Inst.complete .ok
      { i with
        encOut0 := packOut0 (enc (i.encIn.setWidth 31))
        encOut1 := packOut1 (enc (i.encIn.setWidth 31))
        encLen := BitVec.ofNat 3 (enc (i.encIn.setWidth 31)).length } := by
  rw [Inst.encoderStep, if_neg (by rw [h]; exact Bool.false_ne_true)]

/-- Byte `n` of four bytes put side by side. -/
theorem extractLsb'_append4 (a b c d : Byte) {n : Nat} (h : n < 4) :
    (a ++ b ++ c ++ d : BitVec (8 + 8 + 8 + 8)).extractLsb' (8 * n) 8 = [d, c, b, a].getD n 0#8 := by
  apply BitVec.eq_of_getLsbD_eq
  intro i hi
  have hn : n = 0 ∨ n = 1 ∨ n = 2 ∨ n = 3 := by omega
  rcases hn with h | h | h | h <;> subst h <;>
    simp only [BitVec.getLsbD_extractLsb', hi, BitVec.getLsbD_append, decide_true, Bool.true_and]
  · simp [hi]
  · rw [if_neg (by omega), if_pos (by omega)]; simp
  · rw [if_neg (by omega), if_neg (by omega), if_pos (by omega)]; simp; congr 1; omega
  · rw [if_neg (by omega), if_neg (by omega), if_neg (by omega)]; simp; congr 1; omega

/-- ENC_OUT0[8n+7:8n] is encoded byte `n` (10_state R29). -/
theorem packOut0_byte (bytes : List Byte) {n : Nat} (h : n < 4) :
    (packOut0 bytes).extractLsb' (8 * n) 8 = bytes.getD n 0x00#8 := by
  refine (extractLsb'_append4 _ _ _ _ h).trans ?_
  have hn : n = 0 ∨ n = 1 ∨ n = 2 ∨ n = 3 := by omega
  rcases hn with h | h | h | h <;> subst h <;> rfl

/-! ### Register writes -/

theorem Inst.writeReg_busy {i : Inst} (pl : Platform) (r : Reg) (w : Word) (h : i.status.busy = true) :
    i.writeReg pl r w = i.ignoredWrite := by simp [Inst.writeReg, h]

theorem Inst.writeReg_idle {i : Inst} (pl : Platform) (r : Reg) (w : Word) (h : i.status.busy = false) :
    i.writeReg pl r w = i.storeReg pl w r := by simp [Inst.writeReg, h]

/-- A cursor or limit write keeps AW bits (40_control R107). -/
theorem truncAw_lt (pl : Platform) (w : Word) : (truncAw pl w).toNat < bufSize pl := by
  unfold truncAw
  rw [BitVec.toNat_ofNat]
  exact lt_of_le_of_lt (Nat.mod_le _ _) (Nat.mod_lt _ (Nat.two_pow_pos _))

/-! ### The cursor does not wrap -/

/-- The K-th byte remains exactly where DEC_POS + K is below DEC_LIMIT (42_decoder R140). -/
theorem Inst.lt_avail_iff (i : Inst) : i.k.val < i.avail ↔ i.decPos.toNat + i.k.val < i.decLimit.toNat := by
  rw [Inst.avail_eq]; omega

/-- The address of a byte that remains is the plain sum (20_memory R70). -/
theorem State.byteAddr_eq {s : State} (h : s.inst.decLimit.toNat < bufSize s.plat) (hk : s.inst.k.val < s.inst.avail) :
    s.byteAddr = s.inst.decPos.toNat + s.inst.k.val := by
  rw [Inst.avail_eq] at hk
  exact Nat.mod_eq_of_lt (by omega)

/-- Advancing past a byte that remains is the plain sum (10_state R40). -/
theorem State.advance_toNat {s : State} (hk : s.inst.k.val < s.inst.avail) :
    (s.inst.decPos + BitVec.ofNat 32 (s.inst.k.val + 1)).toNat = s.inst.decPos.toNat + s.inst.k.val + 1 := by
  rw [Inst.avail_eq] at hk
  have hk5 := s.inst.k.isLt
  have hl := s.inst.decLimit.isLt
  simp only [BitVec.toNat_add, BitVec.toNat_ofNat]
  omega

/-- Advancing past a byte that remains needs no truncation to AW bits. -/
theorem State.truncAw_advance {s : State} (h : s.inst.decLimit.toNat < bufSize s.plat) (hk : s.inst.k.val < s.inst.avail) :
    truncAw s.plat (s.inst.decPos + BitVec.ofNat 32 (s.inst.k.val + 1)) =
      s.inst.decPos + BitVec.ofNat 32 (s.inst.k.val + 1) := by
  have e := State.advance_toNat hk
  have hk' := (Inst.lt_avail_iff s.inst).1 hk
  unfold truncAw
  rw [Nat.mod_eq_of_lt (by rw [e]; omega), BitVec.ofNat_toNat, BitVec.setWidth_eq]

/-- What the invariant says of instance 0. -/
theorem Inv.inst0 {s : State} (h : Inv s) : InstInv s.plat s.inst := h.insts _ (by simp [State.insts])

end Sys2Proof.Machine
end

