-- ==== Sys2Proof/Laws/Step.lean ====
section
/-! SUPPORT. Everything a step can do, event by event. -/

namespace Sys2Proof.Machine

/-- The step of an event is what the event does, with the event used up. -/
@[simp] theorem step_withEvent (ev : Event) (s : State) : step (s.withEvent ev) = perform ev s := rfl

theorem step_idle {s : State} (h : s.input = []) : step s = idleTurn s := by simp [step, h]

theorem step_event {s : State} {ev : Event} {rest : List Event} (h : s.input = ev :: rest) :
    step s = perform ev { s with input := rest } := by simp [step, h]

/-! ### The register window -/

theorem regAt_named (r : Reg) : regAt (regOffset r) = r := by cases r <;> rfl

/-- The registers by offset, as 10_state R21 lists them. -/
theorem regAt_cases (off : Nat) :
    (off = 0x00 ∧ regAt off = .ctrl) ∨ (off = 0x04 ∧ regAt off = .status) ∨ (off = 0x08 ∧ regAt off = .encIn) ∨
    (off = 0x0C ∧ regAt off = .encOut0) ∨ (off = 0x10 ∧ regAt off = .encOut1) ∨ (off = 0x14 ∧ regAt off = .encLen) ∨
    (off = 0x18 ∧ regAt off = .decPos) ∨ (off = 0x1C ∧ regAt off = .decLimit) ∨ (off = 0x20 ∧ regAt off = .decValue) ∨
    (off = 0x24 ∧ regAt off = .decCount) ∨
    ((off ≠ 0x00 ∧ off ≠ 0x04 ∧ off ≠ 0x08 ∧ off ≠ 0x0C ∧ off ≠ 0x10 ∧ off ≠ 0x14 ∧ off ≠ 0x18 ∧ off ≠ 0x1C ∧
      off ≠ 0x20 ∧ off ≠ 0x24) ∧ regAt off = .reserved) := by
  by_cases h0 : off = 0x00; · simp [h0, regAt]
  by_cases h1 : off = 0x04; · simp [h1, regAt]
  by_cases h2 : off = 0x08; · simp [h2, regAt]
  by_cases h3 : off = 0x0C; · simp [h3, regAt]
  by_cases h4 : off = 0x10; · simp [h4, regAt]
  by_cases h5 : off = 0x14; · simp [h5, regAt]
  by_cases h6 : off = 0x18; · simp [h6, regAt]
  by_cases h7 : off = 0x1C; · simp [h7, regAt]
  by_cases h8 : off = 0x20; · simp [h8, regAt]
  by_cases h9 : off = 0x24; · simp [h9, regAt]
  simp [regAt, h0, h1, h2, h3, h4, h5, h6, h7, h8, h9]

theorem Inst.touched_own {i : Inst} {off : Nat} (h : off < 0x100) : i.touched (i.base + off) 4 = true := by
  simp [Inst.touched, windowSize]; omega

theorem Inst.aligned_own {i : Inst} {off : Nat} (h : off % 4 = 0) : i.aligned (i.base + off) 4 = true := by
  simp [Inst.aligned, h]

/-- An access at an offset of instance 0's window reaches instance 0. -/
theorem State.target_own {s : State} {off : Nat} (h : off < 0x100) : s.target (s.inst.base + off) 4 = some 0 := by
  simp [State.target, State.insts, List.findIdx?_cons, Inst.touched_own h]

/-- Which accesses reach a window, in plain arithmetic (log entry 14). -/
theorem Inst.touched_iff (i : Inst) (addr size : Nat) :
    i.touched addr size = true ↔ 0 < size ∧ addr < i.base + 0x100 ∧ i.base < addr + size := by
  simp only [Inst.touched, Bool.and_eq_true, decide_eq_true_eq, and_assoc]
  exact Iff.rfl

/-- Which accesses are aligned words of a window (20_memory R61). -/
theorem Inst.aligned_iff (i : Inst) (addr size : Nat) :
    i.aligned addr size = true ↔ size = 4 ∧ i.base ≤ addr ∧ (addr - i.base) % 4 = 0 := by
  simp [Inst.aligned, and_assoc]

/-- An access reaches the first window it touches. -/
theorem State.target_iff {s : State} {n : Nat} {i : Inst} (addr size : Nat) (hi : s.instAt n = some i) :
    s.target addr size = some n ↔
      i.touched addr size = true ∧ ∀ (m : Nat) (j : Inst), m < n → s.instAt m = some j → j.touched addr size = false := by
  obtain ⟨hn, rfl⟩ := List.getElem?_eq_some_iff.1 hi
  unfold State.target
  rw [List.findIdx?_eq_some_iff_getElem]
  constructor
  · rintro ⟨_, ht, hb⟩
    refine ⟨ht, fun m j hm hj => ?_⟩
    obtain ⟨_, rfl⟩ := List.getElem?_eq_some_iff.1 hj
    simpa using hb m hm
  · rintro ⟨ht, hb⟩
    exact ⟨hn, ht, fun m hm => by simpa using hb m _ hm (List.getElem?_eq_getElem (Nat.lt_trans hm hn))⟩

theorem State.target_lt {s : State} {addr size n : Nat} (h : s.target addr size = some n) : n < s.numInst := by
  obtain ⟨h, -⟩ := List.findIdx?_eq_some_iff_getElem.1 h
  simpa [State.insts, State.numInst] using h

/-- Which window an access reaches depends on the bases alone. -/
theorem State.target_congr {s t : State} (h : ∀ m, (t.instAt m).map Inst.base = (s.instAt m).map Inst.base)
    (addr size : Nat) : t.target addr size = s.target addr size := by
  have key (u : State) : u.target addr size = (u.insts.map Inst.base).findIdx? fun b =>
      decide (0 < size) && decide (addr < b + windowSize) && decide (b < addr + size) := by
    rw [List.findIdx?_map]; rfl
  have e : t.insts.map Inst.base = s.insts.map Inst.base :=
    List.ext_getElem? fun m => by simpa [State.instAt] using h m
  rw [key, key, e]

/-- An aligned word access at an offset of instance 0's window is carried out there. -/
theorem busAccess_own {s : State} {off : Nat} (f : Nat → State → Result) (h : off < 0x100) (h4 : off % 4 = 0) :
    busAccess (s.inst.base + off) 4 f s = f off s := by
  simp [busAccess, State.target_own h, windowAccess, Inst.aligned_own h4]

/-- The step of a host write at an offset of instance 0's window. -/
theorem step_hostWrite {s : State} {off : Nat} (w : Word) (h : off < 0x100) (h4 : off % 4 = 0) :
    step (s.withEvent (.busWrite (s.inst.base + off) 4 w)) = hostWrite off w s := by
  rw [step_withEvent]
  exact busAccess_own _ h h4

/-- The step of a host read at an offset of instance 0's window. -/
theorem step_hostRead {s : State} {off : Nat} (h : off < 0x100) (h4 : off % 4 = 0) :
    step (s.withEvent (.busRead (s.inst.base + off) 4)) =
      .next { s with rdata := s.inst.readReg (regAt off) } := by
  rw [step_withEvent]
  exact busAccess_own _ h h4

/-- The step of a CTRL write to instance 0 is the meaning of its word. -/
theorem step_ctrlWrite (s : State) (w : Word) :
    step (s.withEvent (.busWrite s.inst.base 4 w)) = exec (decodeCtrl w) s :=
  step_hostWrite (off := 0) w (by omega) rfl

theorem isCommand_decodeCtrl (w : Word) : ¬ isByteClass (decodeCtrl w) := by
  intro h
  unfold decodeCtrl at h
  (repeat' split at h) <;> exact h _ rfl

/-- A command never stops. -/
theorem exec_command {i : Instr} (h : ¬ isByteClass i) (s : State) : ∃ j, exec i s = .next (s.setInst j) := by
  obtain hj | ⟨h', -⟩ := exec_cases i s
  · exact hj
  · exact absurd h' h

/-- A host register write always has a next state, with instance 0 alone changed. -/
theorem hostWrite_setInst (off : Nat) (w : Word) (s : State) : ∃ j, hostWrite off w s = .next (s.setInst j) := by
  unfold hostWrite
  split
  · exact exec_command (isCommand_decodeCtrl w) s
  · exact ⟨_, rfl⟩

/-- While BUSY = 1 a register write, a command among them, is an ignored write (40_control R105). -/
theorem hostWrite_busy {s : State} (off : Nat) (w : Word) (h : s.inst.status.busy = true) :
    hostWrite off w s = .next (s.setInst s.inst.ignoredWrite) := by
  unfold hostWrite
  split
  · unfold decodeCtrl
    split; · exact onCommand_busy (fun i => i) h
    split; · exact onCommand_busy _ h
    split; · exact onCommand_busy _ h
    split; · exact onCommand_busy _ h
    exact onCommand_busy _ h
  · simp [Inst.writeReg, h]

/-- Reaching instance `n` with an operation that writes instance 0 alone. -/
theorem atInst_setInst {n : Nat} {f : State → Result} {s : State} {j : Inst} (hn : n < s.numInst)
    (h : f (s.focus n) = .next ((s.focus n).setInst j)) :
    atInst n f s = .next (((s.focus n).setInst j).focus n) := by
  simp [atInst, hn, h, onNext]

/-- All a host bus access can do: pass every window by, fault, or reach one instance by an aligned word. -/
theorem busAccess_cases (addr size : Nat) (f : Nat → State → Result) (s : State) :
    (s.target addr size = none ∧ busAccess addr size f s = .next s) ∨
    ∃ n, s.target addr size = some n ∧ n < s.numInst ∧
      (((s.focus n).inst.aligned addr size = false ∧ busAccess addr size f s = .fault .badBusAccess) ∨
        ((s.focus n).inst.aligned addr size = true ∧
          busAccess addr size f s = onNext (State.focus n) (f (addr - (s.focus n).inst.base) (s.focus n)))) := by
  unfold busAccess
  cases h : s.target addr size with
  | none => exact .inl ⟨rfl, rfl⟩
  | some n =>
    have hn := State.target_lt h
    refine .inr ⟨n, rfl, hn, ?_⟩
    cases ha : (s.focus n).inst.aligned addr size with
    | false => exact .inl ⟨rfl, by simp [atInst, hn, windowAccess, ha, onNext]⟩
    | true => exact .inr ⟨rfl, by simp [atInst, hn, windowAccess, ha]⟩

/-- A host read on instance `n`, seen from outside: only what the host read changes. -/
theorem onNext_focus_hostRead (n off : Nat) (s : State) :
    onNext (State.focus n) (hostRead off (s.focus n)) =
      .next { s with rdata := (s.focus n).inst.readReg (regAt off) } := by
  have h := State.focus_focus n s
  simp only [hostRead, onNext]
  congr 1
  generalize (s.focus n).inst.readReg (regAt off) = v
  cases n with
  | zero => rfl
  | succ m =>
    cases hp : s.peers[m]? with
    | none => simp [State.focus, hp]
    | some i =>
      obtain ⟨hm, hi⟩ := List.getElem?_eq_some_iff.1 hp
      subst hi
      simp [State.focus, hm]

/-- All an event can do: change one instance, change what the host read, change one byte of BUF, change nothing, or fault. -/
theorem perform_cases (ev : Event) (s : State) :
    (∃ n j, n < s.numInst ∧ s.eventInst ev = some n ∧
      perform ev s = .next (((s.focus n).setInst j).focus n)) ∨
    (∃ v, ((∃ a z, ev = .busRead a z) ∨ ∃ a, ev = .bufRead a) ∧ perform ev s = .next { s with rdata := v }) ∨
    (∃ a b, ev = .bufWrite a b ∧ a < bufSize s.plat ∧ s.insts.any (Inst.usesAddr a) = false ∧
      perform ev s = .next { s with buf := s.buf.write a b }) ∨
    perform ev s = .next s ∨
    (∃ r, perform ev s = .fault r ∧
      ((r = .badBusAccess ∧ ∃ a z, ((∃ w, ev = .busWrite a z w) ∨ ev = .busRead a z) ∧
          ∃ i ∈ s.insts, i.touched a z = true ∧ i.aligned a z = false) ∨
        (r = .bufWriteInUse ∧ ∃ a b, ev = .bufWrite a b ∧ a < bufSize s.plat ∧ s.insts.any (Inst.usesAddr a) = true) ∨
        (r = .noSuchBufAddress ∧ ∃ a, ((∃ b, ev = .bufWrite a b) ∨ ev = .bufRead a) ∧ bufSize s.plat ≤ a))) := by
  have reached : ∀ {addr size n : Nat}, s.target addr size = some n → (s.focus n).inst.aligned addr size = false →
      ∃ i ∈ s.insts, i.touched addr size = true ∧ i.aligned addr size = false := by
    intro addr size n ht ha
    obtain ⟨i, hi⟩ := State.instAt_of_lt (State.target_lt ht)
    rw [State.focus_inst hi] at ha
    exact ⟨i, List.mem_iff_getElem?.2 ⟨n, hi⟩, ((State.target_iff addr size hi).1 ht).1, ha⟩
  cases ev with
  | busWrite addr size w =>
    obtain ⟨-, h⟩ | ⟨n, ht, hn, ⟨ha, h⟩ | ⟨-, h⟩⟩ := busAccess_cases addr size (fun off => hostWrite off w) s
    · exact .inr (.inr (.inr (.inl h)))
    · exact .inr (.inr (.inr (.inr ⟨_, h, .inl ⟨rfl, addr, size, .inl ⟨w, rfl⟩, reached ht ha⟩⟩)))
    · obtain ⟨j, hj⟩ := hostWrite_setInst (addr - (s.focus n).inst.base) w (s.focus n)
      exact .inl ⟨n, j, hn, ht, h.trans (by rw [hj]; rfl)⟩
  | busRead addr size =>
    obtain ⟨-, h⟩ | ⟨n, ht, -, ⟨ha, h⟩ | ⟨-, h⟩⟩ := busAccess_cases addr size hostRead s
    · exact .inr (.inr (.inr (.inl h)))
    · exact .inr (.inr (.inr (.inr ⟨_, h, .inl ⟨rfl, addr, size, .inr rfl, reached ht ha⟩⟩)))
    · exact .inr (.inl ⟨_, .inl ⟨_, _, rfl⟩, h.trans (onNext_focus_hostRead _ _ _)⟩)
  | bufWrite a b =>
    by_cases h1 : bufSize s.plat ≤ a
    · exact .inr (.inr (.inr (.inr ⟨.noSuchBufAddress, by simp [perform, hostBufWrite, h1],
        .inr (.inr ⟨rfl, a, .inl ⟨b, rfl⟩, h1⟩)⟩)))
    · cases h2 : s.insts.any (Inst.usesAddr a) with
      | true =>
        exact .inr (.inr (.inr (.inr ⟨.bufWriteInUse, by simp [perform, hostBufWrite, h1, h2],
          .inr (.inl ⟨rfl, a, b, rfl, by omega, h2⟩)⟩)))
      | false =>
        exact .inr (.inr (.inl ⟨a, b, rfl, by omega, h2, by simp [perform, hostBufWrite, h1, h2]⟩))
  | bufRead a =>
    by_cases h1 : bufSize s.plat ≤ a
    · exact .inr (.inr (.inr (.inr ⟨.noSuchBufAddress, by simp [perform, hostBufRead, h1],
        .inr (.inr ⟨rfl, a, .inr rfl, h1⟩)⟩)))
    · exact .inr (.inl ⟨(s.buf.read a).setWidth 32, .inr ⟨_, rfl⟩, by simp [perform, hostBufRead, h1]⟩)
  | engine n =>
    by_cases hn : n < s.numInst
    · obtain ⟨j, hj⟩ := engineTurn_setInst (s.focus n)
      exact .inl ⟨n, j, hn, rfl, atInst_setInst hn hj⟩
    · exact .inr (.inr (.inr (.inl (by simp [perform, atInst, hn]))))
  | reset n =>
    by_cases hn : n < s.numInst
    · exact .inl ⟨n, _, hn, rfl, atInst_setInst (f := resetInst) hn rfl⟩
    · exact .inr (.inr (.inr (.inl (by simp [perform, atInst, hn]))))

/-! ### No event waiting -/

theorem State.firstReady_some {s : State} {n : Nat} (h : s.firstReady = some n) :
    n < s.numInst ∧ (s.focus n).engineReady = true := by
  have h' : (List.range s.numInst).find? (fun n => (s.focus n).engineReady) = some n := h
  exact ⟨by simpa using List.mem_of_find?_eq_some h', List.find?_some (p := fun n => (s.focus n).engineReady) h'⟩

theorem State.firstReady_none {s : State} (h : s.firstReady = none) {n : Nat} (hn : n < s.numInst) :
    (s.focus n).engineReady = false := by
  have := List.find?_eq_none.1 h n (by simpa using hn)
  simpa using this

/-- All a machine can do with no event waiting. -/
theorem idleTurn_cases (s : State) :
    (∃ n j, n < s.numInst ∧ (s.focus n).engineReady = true ∧
      engineTurn (s.focus n) = .next ((s.focus n).setInst j) ∧
      idleTurn s = .next (((s.focus n).setInst j).focus n)) ∨
    ((∀ n, n < s.numInst → (s.focus n).engineReady = false) ∧ idleTurn s = .next s) := by
  unfold idleTurn
  cases h : s.firstReady with
  | none => exact .inr ⟨fun n hn => State.firstReady_none h hn, rfl⟩
  | some n =>
    obtain ⟨hn, hr⟩ := State.firstReady_some h
    obtain ⟨j, hj⟩ := engineTurn_setInst (s.focus n)
    exact .inl ⟨n, j, hn, hr, hj, atInst_setInst hn hj⟩

end Sys2Proof.Machine
end

