-- ==== Sys2Proof/Laws/HostProgram.lean ====
section
/-! SUPPORT. What a host's turn, another agent's turn and a run of them can do, and the end of a run. -/

namespace Sys2Proof.Machine

/-- A transaction that answers is the machine's own step of that event, with what it returned recorded. -/
theorem HostRun.transact_eq_next {ev : Event} {left : Word → List HostOp} {r q : HostRun} (h : r.transact ev left = .next q) :
    ∃ t, perform ev r.machine = .next t ∧
      q = { todo := left t.rdata, trace := r.trace ++ [(ev, t.rdata)], machine := t } := by
  unfold HostRun.transact at h
  split at h
  · rename_i t ht
    exact ⟨t, ht, by cases h; rfl⟩
  · cases h
  · cases h

/-- All a host's turn can do: nothing at the program's end, one transaction, or one read of a poll, which goes round while
s[0] = 1. -/
theorem hostTurn_cases {r q : HostRun} (h : hostTurn r = .next q) :
    (r.todo = [] ∧ q = r) ∨
    ∃ (ev : Event) (t : State), perform ev r.machine = .next t ∧ q.machine = t ∧ q.trace = r.trace ++ [(ev, t.rdata)] ∧
      ((∃ rest, r.todo = .access ev :: rest ∧ q.todo = rest) ∨
        ∃ status rest, ev = .busRead status 4 ∧ r.todo = .poll status :: rest ∧
          q.todo = if t.rdata.getLsbD 0 = true then r.todo else rest) := by
  unfold hostTurn at h
  split at h
  · rename_i ht
    exact .inl ⟨ht, by cases h; rfl⟩
  · rename_i ev rest ht
    obtain ⟨t, hp, rfl⟩ := HostRun.transact_eq_next h
    exact .inr ⟨ev, t, hp, rfl, rfl, .inl ⟨rest, ht, rfl⟩⟩
  · rename_i status rest ht
    obtain ⟨t, hp, rfl⟩ := HostRun.transact_eq_next h
    exact .inr ⟨_, t, hp, rfl, rfl, .inr ⟨status, rest, rfl, ht, by rw [ht]; rfl⟩⟩

/-- Another agent's turn leaves the host where it is. -/
theorem otherTurn_eq_next {ev : Event} {r q : HostRun} (h : otherTurn ev r = .next q) :
    ∃ t, perform ev r.machine = .next t ∧ q = { r with machine := t } := by
  unfold otherTurn at h
  split at h
  · rename_i t ht
    exact ⟨t, ht, by cases h; rfl⟩
  · cases h
  · cases h

/-- A turn of the host or of another agent leaves the machine or performs one event on it. -/
theorem takeTurn_machine {turn : Turn} {r q : HostRun} (h : takeTurn turn r = .next q) :
    q.machine = r.machine ∨ ∃ ev, perform ev r.machine = .next q.machine := by
  cases turn with
  | host =>
    obtain ⟨-, rfl⟩ | ⟨ev, t, hp, rfl, -⟩ := hostTurn_cases h
    · exact .inl rfl
    · exact .inr ⟨ev, hp⟩
  | other ev =>
    obtain ⟨t, hp, rfl⟩ := otherTurn_eq_next h
    exact .inr ⟨ev, hp⟩

@[simp] theorem hostRun_nil (r : HostRun) : hostRun [] r = .next r := rfl

/-- The first turn of a run that answers. -/
theorem hostRun_cons_eq_next {turn : Turn} {turns : List Turn} {r q : HostRun} (h : hostRun (turn :: turns) r = .next q) :
    ∃ p, takeTurn turn r = .next p ∧ hostRun turns p = .next q := by
  rw [hostRun] at h
  split at h
  · rename_i p hp
    exact ⟨p, hp, h⟩
  · cases h
  · cases h

/-- A run in two parts. -/
theorem hostRun_append (more : List Turn) :
    ∀ {turns : List Turn} {r q : HostRun}, hostRun turns r = .next q → hostRun (turns ++ more) r = hostRun more q
  | [], _, _, h => by cases h; rfl
  | turn :: turns, r, q, h => by
    obtain ⟨p, hp, h'⟩ := hostRun_cons_eq_next h
    simp only [List.cons_append, hostRun, hp]
    exact hostRun_append more h'

@[simp] theorem runFor_zero (sched : Schedule) (r : HostRun) : runFor sched 0 r = .next r := rfl

/-- The run of a schedule, one more turn. -/
theorem runFor_succ {sched : Schedule} {m : Nat} {r q : HostRun} (h : runFor sched m r = .next q) :
    runFor sched (m + 1) r = takeTurn (sched m) q := by
  unfold runFor at h ⊢
  rw [List.range_succ, List.map_append, hostRun_append _ h]
  simp only [List.map_cons, List.map_nil, hostRun]
  cases takeTurn (sched m) q <;> rfl

@[simp] theorem finalOutcome_next (n : Nat) (r : HostRun) : FinalOutcome n (.next r) ↔ r.Final n := Iff.rfl
@[simp] theorem finalOutcome_fault (n : Nat) (e : Fault) : ¬ FinalOutcome n (.fault e) := id
@[simp] theorem finalOutcome_refused (n : Nat) (e : Refusal) : ¬ FinalOutcome n (.refused e) := id

@[simp] theorem HostRun.start_todo (ops : List HostOp) (s : State) : (HostRun.start ops s).todo = ops := rfl
@[simp] theorem HostRun.start_trace (ops : List HostOp) (s : State) : (HostRun.start ops s).trace = [] := rfl
@[simp] theorem HostRun.start_machine (ops : List HostOp) (s : State) : (HostRun.start ops s).machine = s := rfl

end Sys2Proof.Machine
end

