-- ==== Sys2Proof/Laws/PerInstr.lean ====
section
/-! SUPPORT. What holds of every instruction as syntax, one lemma per constructor. -/

namespace Sys2Proof.Laws.EncodedWidth

/-- The "width" of an instruction's row in spec/opcode_table.json. -/
def rowWidth : Instr → Nat
  | .nop => 32
  | .encode => 32
  | .decode => 32
  | .illegalCmd3 => 32
  | .illegalZ _ => 32
  | .cont _ => 8
  | .term _ => 8
  | .cont5 _ => 8
  | .term5 _ => 8
  | .ovr5 _ => 8
  | .noByte => 0

/-- The encoded form has as many bits as the opcode table gives the row, and the row is found at some byte index. -/
def Statement (i : Instr) : Prop := (encodeInstr i).bits = rowWidth i ∧ ∃ k : Fin 5, i.fitsAt k = true

theorem nop : Statement .nop := ⟨rfl, 0, rfl⟩
theorem encode : Statement .encode := ⟨rfl, 0, rfl⟩
theorem decode : Statement .decode := ⟨rfl, 0, rfl⟩
theorem illegalCmd3 : Statement .illegalCmd3 := ⟨rfl, 0, rfl⟩
theorem illegalZ (w : Word) : Statement (.illegalZ w) := ⟨rfl, 0, rfl⟩
theorem cont (p : BitVec 7) : Statement (.cont p) := ⟨rfl, 0, rfl⟩
theorem term (p : BitVec 7) : Statement (.term p) := ⟨rfl, 0, rfl⟩
theorem cont5 (p : BitVec 7) : Statement (.cont5 p) := ⟨rfl, 4, rfl⟩
theorem term5 (p : BitVec 3) : Statement (.term5 p) := ⟨rfl, 4, rfl⟩
theorem ovr5 (p : BitVec 7) : Statement (.ovr5 p) := ⟨rfl, 4, rfl⟩
theorem noByte : Statement .noByte := ⟨rfl, 0, rfl⟩

end Sys2Proof.Laws.EncodedWidth
end

