-- ==== Sys2Proof/Laws/Run.lean ====
section
/-! SUPPORT. Runs, one step at a time. -/

namespace Sys2Proof.Machine

/-- The first step of a run, for any machine. -/
theorem run_succ (M : Host.Core) {n : Nat} {s t : M.State} (h : M.step s = .next t) : M.run (n + 1) s = M.run n t := by
  simp only [Host.Core.run, h]

/-- The first step of a run of this machine. -/
theorem core_run_succ {n : Nat} {s t : State} (h : step s = .next t) :
    Host.Core.run Sys2Proof.core (n + 1) s = Host.Core.run Sys2Proof.core n t :=
  run_succ Sys2Proof.core h

theorem core_run_zero (s : State) : Host.Core.run Sys2Proof.core 0 s = .next s := rfl

/-- A run in two parts. -/
theorem run_add (M : Host.Core) (b : Nat) :
    ∀ {a : Nat} {s t : M.State}, M.run a s = .next t → M.run (a + b) s = M.run b t
  | 0, s, t, h => by cases h; rw [Nat.zero_add]
  | a + 1, s, t, h => by
    rw [Nat.add_right_comm]
    simp only [Host.Core.run] at h ⊢
    split at h
    · exact run_add M b h
    · cases h
    · cases h

/-- The first of several turns of instance 0's engine. -/
theorem core_run_turn {n : Nat} {s t : State} (h : engineTurn (s.withTurns n) = .next t) :
    Host.Core.run Sys2Proof.core (n + 1) (s.withTurns (n + 1)) = Host.Core.run Sys2Proof.core n t := by
  refine core_run_succ ?_
  have e : s.withTurns (n + 1) = (s.withTurns n).withEvent (.engine 0) := rfl
  rw [e, step_withEvent]
  simpa [perform] using h

end Sys2Proof.Machine
end

