-- ==== Sys2Proof/Tests/Slice0.lean ====
section
/-! SUPPORT. Small tests. Expected results come from the rules of spec/ and the vectors of 95_test_vectors (EV, DV, CV, P),
named at each test; the last part shows, for every statement that has hypotheses, a state that meets them. -/

namespace Sys2Proof.Tests

open Sys2Proof Sys2Proof.Machine

/-! ### Helpers -/

/-- The next state, if there is one. -/
def nextOf : Result → Option State
  | .next s => some s
  | .fault _ => none
  | .refused _ => none

/-- The fault, if there is one. -/
def faultOf : Result → Option Fault
  | .next _ => none
  | .fault r => some r
  | .refused _ => none

/-- The state after one event, from `s`. -/
def after (s : State) (ev : Event) : Option State := nextOf (step (s.withEvent ev))

/-- STATUS as a word after one event. -/
def statusAfter (s : State) (ev : Event) : Option Word := (after s ev).map fun t => t.inst.status.word

/-- A host write to a register of the machine after reset. -/
def wr (offset : Nat) (w : Word) : Event := .busWrite offset 4 w

/-- A machine after reset but for an ENCODE that waits for its engine step. -/
def encoding (v : Word) : State :=
  { State.reset with
    inst := { State.reset.inst with status := Status.accepted, op := .enc, encIn := v } }

/-- A machine after reset but for a DECODE of [pos, limit) at index `k`, with `b` in BUF. -/
def decoding (b : Memory) (pos limit : Word) (k : Fin 5) (acc : BitVec 35) : State :=
  { State.reset with
    buf := b
    inst := { State.reset.inst with
      status := Status.accepted, op := .dec, decPos := pos, decLimit := limit, k := k, acc := acc } }

/-- A machine after reset but for its cursor, its limit and `b` in BUF. -/
def loaded (b : Memory) (pos limit : Word) : State :=
  { State.reset with
    buf := b
    inst := { State.reset.inst with decPos := pos, decLimit := limit } }

/-- A machine after reset but for a second window at 0x100, whose state is `i`. -/
def withPeer (i : Inst) : State := { State.reset with peers := [{ i with base := 0x100 }] }

/-! ### WellFormed refuses what the table's conditions refuse -/

/-- 30_encoding R88: w[31:2] ≠ 0. -/
theorem test_illegalZ_low_word_refused : (Instr.illegalZ 0x00000003#32).wellFormed = false := by decide
theorem test_illegalZ_first_word_accepted : (Instr.illegalZ 0x00000004#32).wellFormed = true := by decide
/-- 30_encoding R87: p > 0x07. -/
theorem test_ovr5_seven_refused : (Instr.ovr5 0x07#7).wellFormed = false := by decide
theorem test_ovr5_eight_accepted : (Instr.ovr5 0x08#7).wellFormed = true := by decide

/-! ### Decoding, each word written out from 30_encoding R80, R81, R86, R87 -/

theorem test_decode_nop : decodeCtrl 0b00000000000000000000000000000000#32 = .nop := by decide
theorem test_decode_encode : decodeCtrl 0b00000000000000000000000000000001#32 = .encode := by decide
theorem test_decode_decode : decodeCtrl 0b00000000000000000000000000000010#32 = .decode := by decide
theorem test_decode_illegalCmd3 : decodeCtrl 0b00000000000000000000000000000011#32 = .illegalCmd3 := by decide
theorem test_decode_illegalZ_with_cmd :
    decodeCtrl 0b10000000000000000000000000000001#32 = .illegalZ 0x80000001#32 := by decide
theorem test_decode_illegalZ_lowest :
    decodeCtrl 0b00000000000000000000000000000100#32 = .illegalZ 0x00000004#32 := by decide
theorem test_decode_cont : decodeByte 0 0b10101100#8 = .cont 0b0101100#7 := by decide
theorem test_decode_cont_index3 : decodeByte 3 0b11111111#8 = .cont 0b1111111#7 := by decide
theorem test_decode_term : decodeByte 0 0b01111111#8 = .term 0b1111111#7 := by decide
theorem test_decode_cont5 : decodeByte 4 0b10001000#8 = .cont5 0b0001000#7 := by decide
theorem test_decode_term5 : decodeByte 4 0b00000111#8 = .term5 0b111#3 := by decide
theorem test_decode_ovr5 : decodeByte 4 0b00001000#8 = .ovr5 0b0001000#7 := by decide
theorem test_decode_noByte : decodeInstr 2 .nothing = .noByte := by decide
theorem test_index_five_rejected : decodeAt 5 (.wire 0x00#8) = .error .noSuchByteIndex := by rfl
theorem test_table_word_command : decodeTableWord 32 2 = some .decode := by decide
theorem test_table_word_byte : decodeTableWord 8 0x80 = some (.cont 0x00#7) := by decide
theorem test_table_word_last_byte : decodeTableWord 16 0x0408 = some (.ovr5 0x08#7) := by decide
theorem test_table_word_no_byte : decodeTableWord 0 0 = some .noByte := by decide

/-- `withFetchWord` makes the very next step run the instruction: ILLEGAL_CMD3 gives STATUS 0x12 (CV4). -/
theorem test_fetch_command :
    (nextOf (step (State.reset.withFetchWord 32 3))).map (fun t => t.inst.status.word) = some 0x00000012#32 := by decide
/-- TERM with payload 5 at K = 0 gives DEC_VALUE 5 (DV7). -/
theorem test_fetch_byte :
    (nextOf (step (State.reset.withFetchWord 8 5))).map (fun t => t.inst.decValue) = some 5#31 := by decide
/-- The byte 0x08 at K = 4 gives OUT_OF_RANGE (DV23). -/
theorem test_fetch_last_byte :
    (nextOf (step (State.reset.withFetchWord 16 0x0408))).map (fun t => t.inst.status.word) = some 0x0000000E#32 := by
  decide
/-- No byte at K = 0 gives TRUNCATED (DV1). -/
theorem test_fetch_no_byte :
    (nextOf (step (State.reset.withFetchWord 0 0))).map (fun t => t.inst.status.word) = some 0x00000006#32 := by decide

/-! ### Commands and registers (95_test_vectors 2.3) -/

/-- CV1. -/
theorem test_reset_status : State.reset.inst.status.word = 0x00000000#32 := by decide
/-- CV2. -/
theorem test_nop_after_reset : after State.reset (wr 0x00 0#32) = some State.reset := by decide
/-- CV3: NOP keeps STATUS = 0x06. -/
theorem test_nop_keeps_status :
    statusAfter { State.reset with inst := { State.reset.inst with
      status := { busy := false, done := true, err := .truncated, ign := false } } } (wr 0x00 0#32) =
      some 0x00000006#32 := by decide
/-- CV4. -/
theorem test_illegal_cmd3 : statusAfter State.reset (wr 0x00 3#32) = some 0x00000012#32 := by decide
/-- CV5. -/
theorem test_illegal_z_cmd1 : statusAfter State.reset (wr 0x00 0x80000001#32) = some 0x00000012#32 := by decide
/-- CV7. -/
theorem test_illegal_four : statusAfter State.reset (wr 0x00 4#32) = some 0x00000012#32 := by decide
/-- CV8. -/
theorem test_encode_accepted : statusAfter (loaded [] 0#32 0#32) (wr 0x00 1#32) = some 0x00000001#32 := by decide
/-- CV9. -/
theorem test_decode_while_encoding :
    (after (encoding 5#32) (wr 0x00 2#32)).map (fun t => (t.inst.status.word, t.inst.op)) =
      some (0x00000021#32, .enc) := by decide
/-- CV10. -/
theorem test_cursor_write_while_decoding :
    (after (decoding [(0, 0x80#8)] 0#32 2#32 1 0#35) (wr 0x18 0x2000#32)).map
      (fun t => (t.inst.decPos, t.inst.status.ign)) = some (0#32, true) := by decide
/-- CV11. -/
theorem test_encode_clears_ign :
    statusAfter { State.reset with inst := { State.reset.inst with
      status := { busy := false, done := true, err := .ok, ign := true } } } (wr 0x00 1#32) =
      some 0x00000001#32 := by decide
/-- CV12. -/
theorem test_status_write_ignored : after State.reset (wr 0x04 0xFFFFFFFF#32) = some State.reset := by decide
/-- CV13. -/
theorem test_ctrl_reads_zero :
    (after (encoding 5#32) (.busRead 0x00 4)).map (fun t => t.rdata) = some 0#32 := by decide
/-- CV14, with AW = 16. -/
theorem test_cursor_write_aw16 :
    (after { State.reset with plat := { Platform.default with aw := 16 } } (wr 0x18 0x12345678#32)).map
      (fun t => t.inst.decPos) = some 0x00005678#32 := by decide
/-- CV15. -/
theorem test_reserved_reads_zero :
    (after (encoding 5#32) (.busRead 0x40 4)).map (fun t => t.rdata) = some 0#32 := by decide
/-- CV16. -/
theorem test_illegal_keeps_result :
    (after { State.reset with inst := { State.reset.inst with decValue := 300#31 } } (wr 0x00 3#32)).map
      (fun t => t.inst.decValue) = some 300#31 := by decide
/-- CV17. -/
theorem test_reset_while_decoding :
    (after (decoding [(0, 0x80#8)] 0#32 5#32 2 0#35) (.reset 0)).map (fun t => t.inst) =
      some State.reset.inst := by decide
/-- CV18. -/
theorem test_halfword_read_faults :
    faultOf (step (State.reset.withEvent (.busRead 0x04 2))) = some .badBusAccess := by decide
/-- CV19. -/
theorem test_buf_write_in_use_faults :
    faultOf (step ((decoding [] 0x10#32 0x15#32 0 0#35).withEvent (.bufWrite 0x13 0#8))) = some .bufWriteInUse := by
  decide
/-- CV20. -/
theorem test_unserved_read_is_stuck :
    after { decoding [] 0#32 5#32 0 0#35 with plat := { aw := 32, served := [] } } (.engine 0) =
      some { decoding [] 0#32 5#32 0 0#35 with plat := { aw := 32, served := [] } } := by decide

/-! ### The encoder (95_test_vectors 2.1) -/

/-- What an ENCODE step leaves: ENC_LEN, ENC_OUT0, ENC_OUT1, STATUS. -/
def encoded (v : Word) : Option (BitVec 3 × Word × Byte × Word) :=
  (after (encoding v) (.engine 0)).map fun t => (t.inst.encLen, t.inst.encOut0, t.inst.encOut1, t.inst.status.word)

/-- EV5. -/
theorem test_encode_300 : encoded 0x0000012C#32 = some (2#3, 0x000002AC#32, 0x00#8, 0x02#32) := by decide
/-- EV8. -/
theorem test_encode_624485 : encoded 0x00098765#32 = some (3#3, 0x00268EE5#32, 0x00#8, 0x02#32) := by decide
/-- EV14. -/
theorem test_encode_max : encoded 0x7FFFFFFF#32 = some (5#3, 0xFFFFFFFF#32, 0x07#8, 0x02#32) := by decide
/-- EV15. -/
theorem test_encode_out_of_range : encoded 0x80000000#32 = some (0#3, 0x00000000#32, 0x00#8, 0x0E#32) := by decide

/-! ### The decoder (95_test_vectors 2.2), one engine step each -/

/-- 42_decoder R143's example, step 1. -/
theorem test_cont_step :
    (after (decoding [(0x1000, 0xAC#8), (0x1001, 0x02#8), (0x1002, 0x55#8)] 0x1000#32 0x1003#32 0 0#35) (.engine 0)).map
      (fun t => (t.inst.acc, t.inst.k)) = some (0x2C#35, 1) := by decide
/-- 42_decoder R143's example, step 2. -/
theorem test_term_step :
    (after (decoding [(0x1000, 0xAC#8), (0x1001, 0x02#8), (0x1002, 0x55#8)] 0x1000#32 0x1003#32 1 0x2C#35) (.engine 0)).map
      (fun t => (t.inst.decValue, t.inst.decCount, t.inst.decPos, t.inst.status.word)) =
      some (300#31, 2#3, 0x1002#32, 0x02#32) := by decide
/-- DV11, last step. -/
theorem test_term5_step :
    (after (decoding [(4, 0x07#8)] 0#32 5#32 4 0x0FFFFFFF#35) (.engine 0)).map
      (fun t => (t.inst.decValue, t.inst.decCount, t.inst.decPos)) = some (0x7FFFFFFF#31, 5#3, 5#32) := by decide
/-- DV21, last step: c = 1 and p > 7. -/
theorem test_cont5_step :
    (after (decoding [(4, 0x88#8)] 0#32 5#32 4 0#35) (.engine 0)).map
      (fun t => (t.inst.status.word, t.inst.decCount, t.inst.decPos)) = some (0x0A#32, 5#3, 0#32) := by decide
/-- DV24, last step. -/
theorem test_ovr5_step :
    (after (decoding [(4, 0x7F#8)] 0#32 5#32 4 0#35) (.engine 0)).map
      (fun t => (t.inst.status.word, t.inst.decCount, t.inst.decPos)) = some (0x0E#32, 5#3, 0#32) := by decide
/-- DV17, last step. -/
theorem test_noByte_step :
    (after (decoding [] 0#32 4#32 4 0x0FFFFFFF#35) (.engine 0)).map
      (fun t => (t.inst.status.word, t.inst.decCount, t.inst.decValue)) = some (0x06#32, 4#3, 0#31) := by decide
/-- DV2. -/
theorem test_limit_below_cursor :
    (after (decoding [] 2#32 1#32 0 0#35) (.engine 0)).map (fun t => (t.inst.status.word, t.inst.decPos)) =
      some (0x06#32, 2#32) := by decide
/-- DV6. -/
theorem test_dec_sentinel : dec [(0, 0xAC#8), (1, 0x02#8), (2, 0x55#8)] 0 3 = .ok 300#31 2 := by decide
/-- DV18. -/
theorem test_dec_cut_short :
    dec [(0, 0xFF#8), (1, 0xFF#8), (2, 0xFF#8), (3, 0xFF#8), (4, 0x07#8)] 0 4 = .truncated 4 := by decide
/-- DV12. -/
theorem test_dec_largest_fifth :
    dec [(0, 0x80#8), (1, 0x80#8), (2, 0x80#8), (3, 0x80#8), (4, 0x07#8)] 0 5 = .ok 0x70000000#31 5 := by decide
/-- DV22. -/
theorem test_dec_malformed :
    dec [(0, 0x80#8), (1, 0x80#8), (2, 0x80#8), (3, 0x80#8), (4, 0x80#8)] 0 6 = .malformed 5 := by decide
/-- DV25. -/
theorem test_dec_out_of_range :
    dec [(0, 0xFF#8), (1, 0xFF#8), (2, 0xFF#8), (3, 0xFF#8), (4, 0x0F#8)] 0 5 = .outOfRange 5 := by decide

/-! ### BUF and the host -/

/-- 20_memory R60, R71; the last address of the space. -/
theorem test_buf_last_address :
    (after State.reset (.bufWrite 0xFFFFFFFF 0xAB#8)).map (fun t => t.buf.read 0xFFFFFFFF) = some 0xAB#8 := by decide
/-- 20_memory R60: the address after the last one. -/
theorem test_buf_past_the_end :
    faultOf (step (State.reset.withEvent (.bufWrite 0x100000000 0#8))) = some .noSuchBufAddress := by decide
/-- Writing what an unlisted address reads as leaves no entry. -/
theorem test_buf_canonical : Memory.write [(3, 0x11#8)] 3 0x00#8 = [] := by decide
theorem test_buf_wf_refuses_order : Memory.wf [(3, 0x11#8), (2, 0x11#8)] = false := by decide
theorem test_buf_wf_refuses_default : Memory.wf [(3, 0x00#8)] = false := by decide
/-- P5, schedule (a): the third write comes while the ENCODE waits. -/
theorem test_write_while_encoding :
    (after (encoding 5#32) (wr 0x08 7#32)).map (fun t => (t.inst.encIn, t.inst.status.word)) =
      some (5#32, 0x21#32) := by decide
/-- 30_encoding R93 and program P1's transactions. -/
theorem test_host_program :
    hostEvents 0x200 [0] [.encode 0x12C#32, .rd .encLen, .mb 0x1000 [0xAC#8, 0x02#8]] =
      [.busWrite 0x208 4 0x12C#32, .busWrite 0x200 4 1#32, .busRead 0x204 4, .busRead 0x214 4,
        .bufWrite 0x1000 0xAC#8, .bufWrite 0x1001 0x02#8] := by decide
/-- What a run has left to do, and what its transactions returned. -/
def ranTo (turns : List Turn) (ops : List HostOp) (s : State) : Option (List HostOp × List Word) :=
  match hostRun turns (HostRun.start ops s) with
  | .next q => some (q.todo, q.trace.map fun e => e.2)
  | .fault _ => none
  | .refused _ => none

/-- 30_encoding R94: a poll before the engine's step reads BUSY and goes round; the one after it ends (program P1's s). -/
theorem test_poll_loops :
    ranTo [.host, .other (.engine 0), .host] (hostOps 0 [.poll]) (encoding 0x12C#32) =
      some ([], [0x00000001#32, 0x00000002#32]) := by decide
/-- 30_encoding R94: with BUSY = 1 the poll is not over. -/
theorem test_poll_not_over_while_busy :
    ranTo [.host, .host] (hostOps 0 [.poll]) (encoding 0x12C#32) =
      some ([.poll 0x04], [0x00000001#32, 0x00000001#32]) := by decide
/-- 70_reset R199: with nothing waiting, the ENCODE's engine moves. -/
theorem test_idle_turn : (nextOf (step (encoding 5#32))).map (fun t => t.inst.status.word) = some 0x02#32 := by decide

/-! ### Every hypothesis of the statements can be met -/

theorem inv_loaded {b : Memory} (pos limit : Word) (hw : b.wf = true) (hb : b.below 4294967296 = true) :
    Machine.Inv (loaded b pos limit) := by
  refine ⟨Nat.le_of_ble_eq_true rfl, Nat.le_of_ble_eq_true rfl, hw, hb, fun i hi => ?_⟩
  obtain rfl : i = (loaded b pos limit).inst := by simpa [State.insts, loaded, State.reset] using hi
  constructor <;> simp [loaded, State.reset, Inst.reset, Platform.default, bufSize] <;> omega

theorem inv_encoding (v : Word) : Machine.Inv (encoding v) := by
  refine ⟨Nat.le_of_ble_eq_true rfl, Nat.le_of_ble_eq_true rfl, rfl, rfl, fun i hi => ?_⟩
  obtain rfl : i = (encoding v).inst := by simpa [State.insts, encoding, State.reset] using hi
  constructor <;> simp [encoding, State.reset, Inst.reset, Platform.default, bufSize, Status.accepted]

theorem inv_decoding {b : Memory} {pos limit : Word} {k : Fin 5} {acc : BitVec 35} (hw : b.wf = true)
    (hb : b.below 4294967296 = true) (ha : acc.toNat < 2 ^ (7 * k.val)) (hk : k.val ≤ limit.toNat - pos.toNat) :
    Machine.Inv (decoding b pos limit k acc) := by
  refine ⟨Nat.le_of_ble_eq_true rfl, Nat.le_of_ble_eq_true rfl, hw, hb, fun i hi => ?_⟩
  obtain rfl : i = (decoding b pos limit k acc).inst := by simpa [State.insts, decoding, State.reset] using hi
  constructor <;>
    simp [decoding, State.reset, Inst.reset, Platform.default, bufSize, Status.accepted, ha, Inst.avail_eq, hk] <;> omega

/-- Every address is served after reset. -/
theorem served_of_reset {s : State} (h : s.plat = Platform.default) (hl : s.inst.decLimit.toNat < 4294967296) : s.Served := by
  intro a _ ha
  have h' : a < 4294967296 := by omega
  rw [h]
  simp [admits, Platform.default, regionHolds, h']

/-- DecodeOfEncoded, with each table condition at its boundary. -/
theorem test_form_fits :
    ((Instr.illegalZ 4#32).wellFormed = true ∧ (Instr.illegalZ 4#32).fitsAt 0 = true) ∧
    ((Instr.cont 0#7).wellFormed = true ∧ (Instr.cont 0#7).fitsAt 3 = true) ∧
    ((Instr.term 127#7).wellFormed = true ∧ (Instr.term 127#7).fitsAt 3 = true) ∧
    ((Instr.ovr5 8#7).wellFormed = true ∧ (Instr.ovr5 8#7).fitsAt 4 = true) ∧
    ((Instr.term5 7#3).wellFormed = true ∧ (Instr.term5 7#3).fitsAt 4 = true) := by decide

/-- ByteClassesByMatchAndMask, each row at its boundary. -/
theorem test_rows_met :
    ((3 : Fin 5).val < 4 ∧ 0x80#8 &&& 0x80#8 = 0x80#8) ∧
    ((3 : Fin 5).val < 4 ∧ 0x7F#8 &&& 0x80#8 = 0x00#8) ∧
    ((4 : Fin 5).val = 4 ∧ 0x80#8 &&& 0x80#8 = 0x80#8) ∧
    ((4 : Fin 5).val = 4 ∧ 0x07#8 &&& 0xF8#8 = 0x00#8) ∧
    ((4 : Fin 5).val = 4 ∧ 0x08#8 &&& 0x80#8 = 0x00#8 ∧ 0x08#8 &&& 0xF8#8 ≠ 0x00#8) := by decide

/-- StepRunsCommandWritten: a second window. -/
theorem test_second_window :
    (withPeer State.reset.inst).instAt 1 = some { State.reset.inst with base := 0x100 } ∧
    (withPeer State.reset.inst).target 0x100 4 = some 1 := by decide

/-- StepRunsByteClassRead, on a second instance, with a byte left and with none. -/
theorem test_second_decoder :
    1 < (withPeer (decoding [] 0#32 1#32 0 0#35).inst).numInst ∧
    ((withPeer (decoding [] 0#32 1#32 0 0#35).inst).focus 1).inst.status.busy = true ∧
    ((withPeer (decoding [] 0#32 1#32 0 0#35).inst).focus 1).inst.op = .dec ∧
    ((withPeer (decoding [] 0#32 1#32 0 0#35).inst).focus 1).inst.k.val <
      ((withPeer (decoding [] 0#32 1#32 0 0#35).inst).focus 1).inst.avail ∧
    admits Platform.default 0 = true ∧
    ((withPeer (decoding [] 0#32 0#32 0 0#35).inst).focus 1).inst.avail ≤
      ((withPeer (decoding [] 0#32 0#32 0 0#35).inst).focus 1).inst.k.val := by decide

/-- The statements on an idle and on a busy block (commands, register writes, IGN). -/
theorem test_idle_and_busy :
    State.reset.inst.status.busy = false ∧ (encoding 5#32).inst.status.busy = true ∧
    (decoding [] 0#32 1#32 0 0#35).inst.status.busy = true := by decide

/-- EncodeIsAccepted: while an ENCODE waits, a write that is no reset and no engine turn has a next state. -/
theorem test_write_after_accept :
    step ((encoding 5#32).withEvent (wr 0x08 7#32)) =
      .next { encoding 5#32 with inst := (encoding 5#32).inst.ignoredWrite } :=
  (step_hostWrite (s := encoding 5#32) (off := 0x08) 7#32 (by decide) rfl).trans rfl

/-- EncodeIsAccepted: the state and the events of its last clause, the engine's turn and an access elsewhere among them. -/
theorem test_encode_waits :
    ((encoding 5#32).inst.status.busy = true ∧ (encoding 5#32).inst.op = .enc) ∧
    (wr 0x08 7#32 ≠ .reset 0 ∧ wr 0x08 7#32 ≠ .engine 0) ∧
    (after (encoding 5#32) (.engine 0)).isSome = true ∧ (after (encoding 5#32) (.bufWrite 0 1#8)).isSome = true := by decide

/-- DecodeIsAccepted: DEC_LIMIT at and below DEC_POS. -/
theorem test_limit_not_above :
    (loaded [] 2#32 2#32).inst.decLimit.toNat ≤ (loaded [] 2#32 2#32).inst.decPos.toNat ∧
    (loaded [] 2#32 1#32).inst.decLimit.toNat ≤ (loaded [] 2#32 1#32).inst.decPos.toNat ∧
    (loaded [] 2#32 1#32).inst.status.busy = false := by decide

/-- IllegalCompletesAtOnce and the offsets of the register statements, at their boundaries. -/
theorem test_words_and_offsets :
    (0x00000003#32 ≠ 0x00000000#32 ∧ 0x00000003#32 ≠ 0x00000001#32 ∧ 0x00000003#32 ≠ 0x00000002#32) ∧
    (0xFC < 0x100 ∧ 0xFC % 4 = 0 ∧ 0xFC ≠ 0x1C) ∧ (0x28 ≤ 0xFC ∧ 0x28 % 4 = 0) := by decide

/-- RegisterReads: both running commands, in states of the invariant. -/
theorem test_running_commands :
    (InstInv (encoding 5#32).plat (encoding 5#32).inst ∧ (encoding 5#32).inst.op = .enc) ∧
    InstInv (decoding [] 0#32 1#32 0 0#35).plat (decoding [] 0#32 1#32 0 0#35).inst ∧
    (decoding [] 0#32 1#32 0 0#35).inst.op = .dec :=
  ⟨⟨(inv_encoding _).inst0, rfl⟩, (inv_decoding rfl rfl (by decide) (by decide)).inst0, rfl⟩

/-- CursorBitsAboveAwReadZero, at AW = 16. -/
theorem test_aw16 : Machine.Inv { State.reset with plat := { Platform.default with aw := 16 } } := by
  refine ⟨by decide, by decide, rfl, rfl, fun i hi => ?_⟩
  obtain rfl : i = Inst.reset 0 := by simpa [State.insts, State.reset] using hi
  constructor <;> simp [Inst.reset, bufSize]

/-- BadWindowAccessFaults and OnlyHostViolationsStop: a 16-bit access, a misaligned one, and ones that straddle either end. -/
theorem test_bad_accesses :
    State.reset.target 0x04 2 = some 0 ∧ State.reset.target 0x05 4 = some 0 ∧ State.reset.target 0xFD 4 = some 0 ∧
    State.reset.target 0x100 4 = none ∧ State.reset.instAt 0 = some (Inst.reset 0) ∧
    (withPeer State.reset.inst).target 0xFE 4 = some 0 ∧ (withPeer State.reset.inst).target 0x101 4 = some 1 := by decide

/-- BadWindowAccessFaults in plain arithmetic, at the last byte of the window and at an access from below it. -/
theorem test_bad_access_bounds :
    (0 < 4 ∧ 0xFF < 0 + 0x100 ∧ 0 < 0xFF + 4 ∧ ¬ (4 = 4 ∧ 0 ≤ 0xFF ∧ (0xFF - 0) % 4 = 0)) ∧
    (0 < 4 ∧ 0xFD < 0x100 + 0x100 ∧ 0x100 < 0xFD + 4 ∧ ¬ (4 = 4 ∧ 0x100 ≤ 0xFD ∧ (0xFD - 0x100) % 4 = 0)) := by decide

/-- HostBufWrites: past the end, the first and last address in use, and the first one after them. -/
theorem test_buf_write_cases :
    2 ^ State.reset.plat.aw ≤ 0x100000000 ∧
    (∃ i ∈ (decoding [] 2#32 4#32 0 0#35).insts, i.op = .dec ∧ i.decPos.toNat ≤ 2 ∧ 2 < i.decLimit.toNat) ∧
    (∃ i ∈ (decoding [] 2#32 4#32 0 0#35).insts, i.op = .dec ∧ i.decPos.toNat ≤ 3 ∧ 3 < i.decLimit.toNat) ∧
    (∀ i ∈ (decoding [] 2#32 4#32 0 0#35).insts, i.op = .dec → ¬ (i.decPos.toNat ≤ 4 ∧ 4 < i.decLimit.toNat)) ∧
    (decoding [] 2#32 4#32 0 0#35).buf.wf = true := by decide

/-- BufReadReturnsLastWrite and BlockNeverWritesBuf. -/
theorem test_buf_write_next :
    step (State.reset.withEvent (.bufWrite 7 0x55#8)) = .next { State.reset with buf := [(7, 0x55#8)] } ∧
    step State.reset = .next State.reset ∧ State.reset.input = [] := by
  exact ⟨rfl, rfl, rfl⟩

/-- EncoderEngineStep, both sides of the domain, and the values EncodedFormProperties speaks of. -/
theorem test_encoder_cases :
    ((encoding 0x80000000#32).inst.op = .enc ∧ (encoding 0x80000000#32).inst.encIn.getLsbD 31 = true) ∧
    ((encoding 0x7FFFFFFF#32).inst.op = .enc ∧ (encoding 0x7FFFFFFF#32).inst.encIn.getLsbD 31 = false) ∧
    (enc 0x7FFFFFFF#31).length = 5 ∧ (enc 0x7FFFFFFF#31)[4]? = some 0x07#8 ∧
    1 < (enc 128#31).length ∧ (enc 128#31)[(enc 128#31).length - 1]? = some 0x01#8 ∧
    0 < encLength 0#31 := by decide

/-- DecodeInvertsEncode and RoundTripOnTheMachine: 300 in BUF, with a sentinel behind it. -/
theorem test_round_trip_state :
    Machine.Inv (loaded [(0, 0xAC#8), (1, 0x02#8), (2, 0x55#8)] 0#32 3#32) ∧
    (loaded [(0, 0xAC#8), (1, 0x02#8), (2, 0x55#8)] 0#32 3#32).inst.status.busy = false ∧
    (loaded [(0, 0xAC#8), (1, 0x02#8), (2, 0x55#8)] 0#32 3#32).Served ∧
    (enc 300#31).length ≤ (loaded [(0, 0xAC#8), (1, 0x02#8), (2, 0x55#8)] 0#32 3#32).inst.avail ∧
    enc 300#31 = [0xAC#8, 0x02#8] ∧
    ∀ (j : Nat) (x : Byte), [0xAC#8, 0x02#8][j]? = some x →
      Memory.read [(0, 0xAC#8), (1, 0x02#8), (2, 0x55#8)] (0 + j) = x := by
  refine ⟨inv_loaded _ _ rfl rfl, rfl, served_of_reset rfl (by decide), by decide, by decide, ?_⟩
  intro j x h
  match j, h with
  | 0, h => exact Option.some.inj h
  | 1, h => exact Option.some.inj h
  | j + 2, h => simp at h

/-- The byte classes, at the boundaries of K. -/
theorem test_class_states :
    ((decoding [] 0#32 5#32 3 0#35).inst.op = .dec ∧ (decoding [] 0#32 5#32 3 0#35).inst.k.val < 4) ∧
    ((decoding [] 0#32 5#32 4 0#35).inst.op = .dec ∧ (decoding [] 0#32 5#32 4 0#35).inst.k.val = 4) := by decide

/-- DecoderEngineStep, CursorMovesOnlyOnSuccess, EventsDoNotDisturbDecode: a byte left and served, none left, one not served. -/
theorem test_decoder_states :
    Machine.Inv (decoding [(0, 0x05#8)] 0#32 1#32 0 0#35) ∧ Machine.Inv (decoding [] 0#32 4#32 4 0#35) ∧
    admits (decoding [(0, 0x05#8)] 0#32 1#32 0 0#35).plat 0 = true ∧
    (after (decoding [(0, 0x05#8)] 0#32 1#32 0 0#35) (.engine 0)).isSome = true ∧
    (after (decoding [(0, 0x05#8)] 0#32 1#32 0 0#35) (wr 0x18 9#32)).isSome = true ∧
    admits { aw := 32, served := [{ base := 1, size := 9 }] } 0 = false :=
  ⟨inv_decoding rfl rfl (by decide) (by decide), inv_decoding rfl rfl (by decide) (by decide), by decide, by decide,
    by decide, by decide⟩

/-- EngineRefinesPureDecoder, BusyUntilTheLastStep and FailedDecodeRepeats: an empty buffer and one with a failure in it. -/
theorem test_failing_decodes :
    Machine.Inv (loaded [] 0#32 0#32) ∧ (loaded [] 0#32 0#32).Served ∧
    (loaded [] 0#32 0#32).decodeOutcome = .truncated 0 ∧
    Machine.Inv (loaded [(0, 0x80#8)] 0#32 1#32) ∧ (loaded [(0, 0x80#8)] 0#32 1#32).Served ∧
    (loaded [(0, 0x80#8)] 0#32 1#32).decodeOutcome = .truncated 1 ∧
    1 < (loaded [(0, 0x80#8)] 0#32 1#32).decodeOutcome.steps ∧
    (loaded [(0, 0x80#8)] 0#32 1#32).decodeOutcome.kind ≠ .ok ∧
    Host.Core.run Sys2Proof.core 2
      (((loaded [] 0#32 0#32).withTurns 1).withEvent (.busWrite 0 4 2#32)) =
      .next { loaded [] 0#32 0#32 with inst := (loaded [] 0#32 0#32).inst.afterDecode (.truncated 0) } :=
  ⟨inv_loaded _ _ rfl rfl, served_of_reset rfl (by decide), by decide, inv_loaded _ _ rfl rfl,
    served_of_reset rfl (by decide), by decide, by decide, by decide, rfl⟩

/-- DecodeStepCounts, CheckOrder, TerminatingByteDecodes: each outcome at its boundary. -/
theorem test_outcomes :
    dec [(0, 0x05#8)] 0 1 = .ok 5#31 1 ∧ dec [] 0 0 = .truncated 0 ∧
    dec [(0, 0x80#8), (1, 0x80#8), (2, 0x80#8), (3, 0x80#8)] 0 4 = .truncated 4 ∧
    dec [(0, 0xFF#8), (1, 0xFF#8), (2, 0xFF#8), (3, 0xFF#8), (4, 0xFF#8)] 0 5 = .malformed 5 ∧
    dec [(0, 0xFF#8), (1, 0xFF#8), (2, 0xFF#8), (3, 0xFF#8), (4, 0x08#8)] 0 5 = .outOfRange 5 ∧
    dec [(0, 0xFF#8), (1, 0xFF#8), (2, 0xFF#8), (3, 0xFF#8), (4, 0x07#8)] 0 5 = .ok 0x7FFFFFFF#31 5 := by decide

/-- AcceptedSequences, OnlyMinimalFormsReencode: the bytes 80 00 are accepted and not minimal, 80 01 are minimal. -/
theorem test_minimality :
    dec [(0, 0x80#8)] 0 2 = .ok 0#31 2 ∧ enc 0#31 ≠ [0x80#8, 0x00#8] ∧
    dec [(0, 0x80#8), (1, 0x01#8)] 0 2 = .ok 128#31 2 ∧ enc 128#31 = [0x80#8, 0x01#8] := by decide

/-- ValueLosesNothing: TERM and TERM5 with a next state. -/
theorem test_terminating_classes :
    InstInv (decoding [] 0#32 5#32 3 0x1FFFFF#35).plat (decoding [] 0#32 5#32 3 0x1FFFFF#35).inst ∧
    (nextOf (exec (.term 127#7) (decoding [] 0#32 5#32 3 0x1FFFFF#35))).map (fun t => t.inst.decValue) =
      some 0xFFFFFFF#31 ∧
    InstInv (decoding [] 0#32 5#32 4 0xFFFFFFF#35).plat (decoding [] 0#32 5#32 4 0xFFFFFFF#35).inst ∧
    (nextOf (exec (.term5 7#3) (decoding [] 0#32 5#32 4 0xFFFFFFF#35))).map (fun t => t.inst.decValue) =
      some 0x7FFFFFFF#31 :=
  ⟨(inv_decoding rfl rfl (by decide) (by decide)).inst0, by decide, (inv_decoding rfl rfl (by decide) (by decide)).inst0,
    by decide⟩

/-- OnlyConsumedBytesMatter: two buffers that differ behind the sentinel's place. -/
theorem test_agreeing_buffers :
    ∀ a : Nat, 0 ≤ a → a < 0 + (dec [(0, 0x05#8)] 0 2).count →
      Memory.read [(0, 0x05#8), (1, 0x55#8)] a = Memory.read [(0, 0x05#8)] a := by decide

/-- EngineStepByOp and WaitingEnginesRun: an engine with a step, and none. -/
theorem test_engine_states :
    ((encoding 5#32).inst.status.busy = true ∧ (encoding 5#32).inst.op = .enc ∧ (encoding 5#32).input = []) ∧
    (0 < (encoding 5#32).numInst ∧ ((encoding 5#32).focus 0).engineReady = true) ∧
    (decoding [(0, 0x05#8)] 0#32 1#32 0 0#35).fetch = some (.term 5#7) ∧
    ¬ State.Stuck (decoding [(0, 0x05#8)] 0#32 1#32 0 0#35) ∧
    (∀ n : Nat, n < State.reset.numInst → (State.reset.focus n).engineReady = false) := by
  refine ⟨by decide, by decide, by decide, by unfold State.Stuck; decide, ?_⟩
  intro n hn
  obtain rfl : n = 0 := by simpa [State.numInst, State.reset] using hn
  decide

/-- StuckUntilReset. -/
theorem test_stuck_state :
    Machine.Inv { decoding [] 0#32 1#32 0 0#35 with plat := { aw := 32, served := [] } } ∧
    State.Stuck { decoding [] 0#32 1#32 0 0#35 with plat := { aw := 32, served := [] } } := by
  refine ⟨?_, by unfold State.Stuck; decide⟩
  have h := inv_decoding (b := []) (pos := 0#32) (limit := 1#32) (k := 0) (acc := 0#35) rfl rfl (by decide) (by decide)
  refine ⟨h.aw_pos, h.aw_le, h.buf_wf, h.buf_below, fun i hi => ?_⟩
  have g := h.insts i hi
  exact ⟨g.busy_iff, g.rest, g.acc_lt, g.busy_clear, g.fresh_ok, g.encLen_le, g.decCount_le, g.pos_lt, g.limit_lt,
    g.out0_tail, g.out1_tail, g.out1_le, g.enc_clear, g.dec_clear, g.read_le, g.base_aligned⟩

/-- StepKeepsInvariant, InstancesAreIsolated: a state of the invariant with a next state. -/
theorem test_step_exists :
    Machine.Inv (encoding 5#32) ∧ (nextOf (step (encoding 5#32))).isSome = true ∧
    (after (withPeer (encoding 5#32).inst) (.engine 1)).map (fun t => (t.inst, t.peers.map fun i => i.op)) =
      some (State.reset.inst, [.idle]) := ⟨inv_encoding _, by decide, by decide⟩

/-- EncoderAndDecoderShareNoData, InstructionFrame: meanings with a next state. -/
theorem test_meanings_answer :
    (nextOf (exec .encode State.reset)).isSome = true ∧ (nextOf (exec .decode State.reset)).isSome = true ∧
    (nextOf (exec .noByte (decoding [] 0#32 0#32 0 0#35))).isSome = true := by decide

/-- EveryInstanceActsAlike: a register write to, a read of, and a reset of a second window, seen from outside. -/
theorem test_second_instance_events :
    (withPeer (encoding 5#32).inst).target (0x100 + 0x08) 4 = some 1 ∧
    (after (withPeer State.reset.inst) (.busWrite 0x108 4 7#32)).map (fun t => t.insts.map fun i => i.encIn) =
      some [0#32, 7#32] ∧
    (after (withPeer (encoding 5#32).inst) (.busRead 0x108 4)).map (fun t => t.rdata) = some 5#32 ∧
    (after (withPeer (encoding 5#32).inst) (.reset 1)).map (fun t => t.insts.map fun i => i.op) =
      some [.idle, .idle] := by decide

/-- RetryAfterTruncated: program P3, three bytes of five, then the other two. -/
theorem test_retry_state :
    Machine.Inv (loaded [(0x2000, 0xFF#8), (0x2001, 0xFF#8), (0x2002, 0xFF#8)] 0x2000#32 0x2003#32) ∧
    (loaded [(0x2000, 0xFF#8), (0x2001, 0xFF#8), (0x2002, 0xFF#8)] 0x2000#32 0x2003#32).Served ∧
    (loaded [(0x2000, 0xFF#8), (0x2001, 0xFF#8), (0x2002, 0xFF#8)] 0x2000#32 0x2003#32).decodeOutcome = .truncated 3 ∧
    (∀ i ∈ (loaded [(0x2000, 0xFF#8), (0x2001, 0xFF#8), (0x2002, 0xFF#8)] 0x2000#32 0x2003#32).peers, i.op ≠ .dec) ∧
    (∀ c ∈ [(0x2003, 0xFF#8), (0x2004, 0x07#8)], 0x2003 ≤ c.1 ∧ c.1 < 2 ^ Platform.default.aw) ∧
    (0x2003#32).toNat ≤ (0x2005#32).toNat ∧ (0x2005#32).toNat < 2 ^ Platform.default.aw ∧
    (∀ a : Nat, 0x2000 ≤ a → a < 0x2005 → admits Platform.default a = true) ∧
    [(0x2003, 0xFF#8), (0x2004, 0x07#8)].foldl (fun b c => Memory.write b c.1 c.2)
      [(0x2000, 0xFF#8), (0x2001, 0xFF#8), (0x2002, 0xFF#8)] =
      [(0x2000, 0xFF#8), (0x2001, 0xFF#8), (0x2002, 0xFF#8), (0x2003, 0xFF#8), (0x2004, 0x07#8)] ∧
    dec [(0x2000, 0xFF#8), (0x2001, 0xFF#8), (0x2002, 0xFF#8), (0x2003, 0xFF#8), (0x2004, 0x07#8)] 0x2000 5 =
      .ok 0x7FFFFFFF#31 5 := by
  refine ⟨inv_loaded _ _ rfl rfl, served_of_reset rfl (by decide), by decide, by decide, by decide, by decide, by decide,
    ?_, by decide, by decide⟩
  intro a _ h
  have h' : a < 4294967296 := by omega
  simp [admits, Platform.default, regionHolds, h']

/-- The host and the engine of instance 0 take turns. -/
def alternating : Schedule := fun k => if k % 2 = 0 then .host else .other (.engine 0)

/-- FairSchedule is met, for every run. -/
theorem test_fair_schedule (r : HostRun) : FairSchedule 0 alternating r := by
  refine ⟨fun m => ⟨2 * m + 1, by omega, .inl ?_⟩, fun m => ⟨2 * m, by omega, ?_⟩, fun k a z w h => ?_⟩
  · simp [alternating]
  · simp [alternating]
  · unfold alternating at h
    split at h <;> cases h

/-- 70_reset R199: under that schedule program P1's poll ends after two reads, BUSY = 1 and then 0. -/
theorem test_fair_poll_ends :
    ranTo ((List.range 3).map alternating) (hostOps 0 [.poll]) (encoding 0x12C#32) =
      some ([], [0x00000001#32, 0x00000002#32]) := by decide

/-- 60_exceptions R175: a program is over beside a busy peer, and not over while its own instance is BUSY or an operation is
left. -/
theorem test_final :
    FinalOutcome 0 (.next (HostRun.start [] (withPeer (encoding 5#32).inst))) ∧
    ¬ FinalOutcome 0 (.next (HostRun.start [] (encoding 5#32))) ∧
    ¬ FinalOutcome 0 (.next (HostRun.start (hostOps 0 [.poll]) State.reset)) := by
  refine ⟨⟨rfl, _, rfl, rfl⟩, ?_, ?_⟩
  · rintro ⟨-, i, hi, hb⟩
    cases hi
    cases hb
  · rintro ⟨h, -⟩
    cases h

/-- PollLoopsWhileBusy and HostProgramsTransactAndEnd: a host at a poll, of an ENCODE and of a DECODE of a served buffer, in
states of the invariant, and a run that finishes. -/
theorem test_poll_states :
    ((encoding 5#32).instAt 0 = some (encoding 5#32).inst ∧ (encoding 5#32).target 0x04 4 = some 0 ∧
      (HostRun.start (hostOps 0 [.poll]) (encoding 5#32)).todo = [.poll ((encoding 5#32).inst.base + 0x04)] ∧
      Machine.Inv (encoding 5#32)) ∧
    (Machine.Inv (decoding [] 0#32 1#32 0 0#35) ∧ (decoding [] 0#32 1#32 0 0#35).Served) ∧
    ranTo [.host] (hostOps 0 [.poll]) State.reset = some ([], [0x00000000#32]) :=
  ⟨⟨rfl, by decide, rfl, inv_encoding _⟩, ⟨inv_decoding rfl rfl (by decide) (by decide), served_of_reset rfl (by decide)⟩,
    by decide⟩

/-- HostProgramsTransactAndEnd: a stuck engine at a program's last line. -/
theorem test_stuck_run :
    State.Stuck (({ decoding [] 0#32 1#32 0 0#35 with plat := { aw := 32, served := [] } } : State).focus 0) ∧
    0 < (HostRun.start [] { decoding [] 0#32 1#32 0 0#35 with plat := { aw := 32, served := [] } }).machine.numInst := by
  exact ⟨by unfold State.Stuck; decide, by decide⟩

end Sys2Proof.Tests
end

section
/-! SUPPORT. The proofs of the statements about the state (10_state, 70_reset): what a meaning does to the instance it
acts on, what it leaves unchanged, and the invariant that every step keeps. -/

namespace Sys2Proof.Machine

/-! ### What a meaning leaves in the instance it acts on -/

/-- A command's CTRL write on one instance (40_control R100). -/
def Inst.commandWith (f : Inst → Inst) (i : Inst) : Inst := if i.status.busy then i.ignoredWrite else f i

/-- What `ins` leaves in the instance it acts on, wherever it answers a next state (`exec_eq_next`). -/
def Inst.effect (pl : Platform) (i : Inst) : Instr → Inst
  | .nop => i.commandWith id
  | .encode => i.commandWith Inst.acceptEncode
  | .decode => i.commandWith Inst.acceptDecode
  | .illegalCmd3 => i.commandWith Inst.acceptIllegal
  | .illegalZ _ => i.commandWith Inst.acceptIllegal
  | .cont p => i.continueWith p
  | .term p => i.succeedDecode pl p
  | .cont5 _ => i.failDecode .malformed 5
  | .term5 p => i.succeedDecode pl (p.setWidth 7)
  | .ovr5 _ => i.failDecode .outOfRange 5
  | .noByte => i.failDecode .truncated i.k.val

theorem onDecoder_eq_next {at_ : Fin 5 → Bool} {f : Inst → Inst} {s t : State} (h : onDecoder at_ f s = .next t) :
    t = s.setInst (f s.inst) ∧ s.inst.op = .dec ∧ at_ s.inst.k = true := by
  obtain ⟨hop, hk, e⟩ | ⟨-, e⟩ := onDecoder_cases at_ f s
  · rw [e] at h
    cases h
    exact ⟨rfl, hop, hk⟩
  · rw [e] at h
    cases h

/-- A meaning that answers leaves its effect in instance 0 and changes nothing else; a byte class answers only during a
DECODE, at an index it is found at. -/
theorem exec_eq_next {ins : Instr} {s t : State} (h : exec ins s = .next t) :
    t = s.setInst (s.inst.effect s.plat ins) ∧ (isByteClass ins → s.inst.op = .dec ∧ ins.fitsAt s.inst.k = true) := by
  cases ins with
  | nop | encode | decode | illegalCmd3 | illegalZ w =>
    cases h
    exact ⟨rfl, fun hb => absurd rfl (hb _)⟩
  | cont p | term p | cont5 p | term5 p | ovr5 p | noByte => exact (onDecoder_eq_next h).imp_right fun hd _ => hd

/-! ### The frame of a meaning -/

section Frame

variable (pl : Platform) (i : Inst)

theorem Inst.effect_base (ins : Instr) : (i.effect pl ins).base = i.base := by
  cases ins <;> simp [effect, commandWith, apply_ite Inst.base]

theorem Inst.effect_encIn (ins : Instr) : (i.effect pl ins).encIn = i.encIn := by
  cases ins <;> simp [effect, commandWith, apply_ite Inst.encIn]

theorem Inst.effect_decLimit (ins : Instr) : (i.effect pl ins).decLimit = i.decLimit := by
  cases ins <;> simp [effect, commandWith, apply_ite Inst.decLimit]

/-- Only a successful DECODE moves the cursor (10_state R32). -/
theorem Inst.effect_decPos {ins : Instr} (h : ∀ p, ins ≠ .term p) (h5 : ∀ p, ins ≠ .term5 p) :
    (i.effect pl ins).decPos = i.decPos := by
  cases ins with
  | term p => exact absurd rfl (h p)
  | term5 p => exact absurd rfl (h5 p)
  | _ => simp [effect, commandWith, apply_ite Inst.decPos]

/-- Only ENCODE writes the encoder's results: it clears them (10_state R29-R31). -/
theorem Inst.effect_encOut {ins : Instr} (h : ins ≠ .encode) :
    (i.effect pl ins).encOut0 = i.encOut0 ∧ (i.effect pl ins).encOut1 = i.encOut1 ∧
      (i.effect pl ins).encLen = i.encLen := by
  cases ins with
  | encode => exact absurd rfl h
  | _ => simp [effect, commandWith, apply_ite Inst.encOut0, apply_ite Inst.encOut1, apply_ite Inst.encLen]

/-- Of the commands only DECODE writes the decoder's results and its progress (10_state R34, R35, R38, R39). -/
theorem Inst.effect_decoder_of_command {ins : Instr} (hc : ¬ isByteClass ins) (h : ins ≠ .decode) :
    (i.effect pl ins).decValue = i.decValue ∧ (i.effect pl ins).decCount = i.decCount ∧
      (i.effect pl ins).k = i.k ∧ (i.effect pl ins).acc = i.acc := by
  cases ins with
  | decode => exact absurd rfl h
  | nop | encode | illegalCmd3 | illegalZ w =>
    simp [effect, commandWith, apply_ite Inst.decValue, apply_ite Inst.decCount, apply_ite Inst.k, apply_ite Inst.acc]
  | _ => exact absurd nofun hc

/-- No engine step of a DECODE writes IGN (10_state R26). -/
theorem Inst.effect_ign_of_byteClass {ins : Instr} (h : isByteClass ins) :
    (i.effect pl ins).status.ign = i.status.ign := by
  cases ins with
  | nop | encode | decode | illegalCmd3 | illegalZ w => exact absurd rfl (h _)
  | _ => rfl

end Frame

/-- Settles O53: each clause is the frame of the effect on that register. -/
theorem instructionFrame : Obligations.InstructionFrame := by
  intro ins s t h
  obtain ⟨rfl, -⟩ := exec_eq_next h
  refine ⟨⟨rfl, rfl, rfl, rfl, fun _ => rfl, ?_, ?_, ?_⟩, ?_, ?_, ?_, ?_⟩
  · exact s.inst.effect_base s.plat ins
  · exact s.inst.effect_encIn s.plat ins
  · exact s.inst.effect_decLimit s.plat ins
  · exact s.inst.effect_decPos s.plat
  · exact s.inst.effect_encOut s.plat
  · exact fun ⟨w, hw⟩ => s.inst.effect_decoder_of_command s.plat fun hb => hb w hw
  · exact s.inst.effect_ign_of_byteClass s.plat

/-! ### The registers of an instance, its command aside -/

/-- What the invariant says of an instance's registers, whatever runs (10_state R29-R35, R44.6, 00_scope R7). -/
structure Inst.DataOk (pl : Platform) (i : Inst) : Prop where
  encLen_le : i.encLen.toNat ≤ 5
  decCount_le : i.decCount.toNat ≤ 5
  pos_lt : i.decPos.toNat < bufSize pl
  limit_lt : i.decLimit.toNat < bufSize pl
  out0_tail : ∀ n : Nat, i.encLen.toNat ≤ n → n < 4 → i.encOut0.extractLsb' (8 * n) 8 = 0#8
  out1_tail : i.encLen.toNat < 5 → i.encOut1 = 0#8
  out1_le : i.encOut1.toNat ≤ 7
  base_aligned : i.base % 0x100 = 0

section OneInst

variable {pl : Platform} {i : Inst}

theorem InstInv.dataOk (h : InstInv pl i) : i.DataOk pl := { h with }

/-- An idle instance meets the invariant by its registers alone, once its command has left nothing behind. -/
theorem Inst.DataOk.instInv (h : i.DataOk pl) (hop : i.op = .idle) (hb : i.status.busy = false) (hk : i.k.val = 0)
    (ha : i.acc = 0#35) (hf : i.status.done = false → i.status.err = .ok) : InstInv pl i :=
  { h with
    busy_iff := by simp [hb, hop]
    rest := fun _ => ⟨hk, ha⟩
    acc_lt := by simp [hop]
    busy_clear := by simp [hb]
    fresh_ok := fun hd _ => hf hd
    enc_clear := by simp [hop]
    dec_clear := by simp [hop]
    read_le := by simp [hop] }

/-- What rests with BUSY = 0 (10_state R37-R39). -/
theorem InstInv.idle (h : InstInv pl i) (hb : i.status.busy = false) : i.op = .idle ∧ i.k.val = 0 ∧ i.acc = 0#35 := by
  have hop : i.op = .idle := by
    by_contra hop
    rw [h.busy_iff.2 hop] at hb
    cases hb
  exact ⟨hop, h.rest (by simp [hop])⟩

theorem instInv_reset {base : Nat} (h : base % 0x100 = 0) : InstInv pl (Inst.reset base) := by
  have hd : (Inst.reset base).DataOk pl :=
    { encLen_le := Nat.zero_le _
      decCount_le := Nat.zero_le _
      pos_lt := Nat.two_pow_pos _
      limit_lt := Nat.two_pow_pos _
      out0_tail := by simp [Inst.reset]
      out1_tail := fun _ => rfl
      out1_le := Nat.zero_le _
      base_aligned := h }
  exact hd.instInv rfl rfl rfl rfl fun _ => rfl

/-- A completion needs nothing of the command that ends (60_exceptions R171). -/
theorem Inst.DataOk.complete (h : i.DataOk pl) (e : ErrKind) : InstInv pl (i.complete e) := by
  have hd : (i.complete e).DataOk pl := { h with }
  exact hd.instInv rfl rfl rfl rfl (by simp)

/-! ### Register writes and commands keep the invariant -/

theorem InstInv.ignoredWrite (h : InstInv pl i) : InstInv pl i.ignoredWrite := { h with }

theorem Inst.DataOk.storeReg (h : i.DataOk pl) (w : Word) (r : Reg) : (i.storeReg pl w r).DataOk pl := by
  cases r with
  | encIn => exact { h with }
  | decPos => exact { h with pos_lt := truncAw_lt pl w }
  | decLimit => exact { h with limit_lt := truncAw_lt pl w }
  | _ => exact h

/-- A register write leaves STATUS and the internal fields (40_control R107). -/
theorem Inst.storeReg_control (pl : Platform) (w : Word) (i : Inst) (r : Reg) :
    (i.storeReg pl w r).status = i.status ∧ (i.storeReg pl w r).op = i.op ∧ (i.storeReg pl w r).k = i.k ∧
      (i.storeReg pl w r).acc = i.acc := by
  cases r <;> exact ⟨rfl, rfl, rfl, rfl⟩

theorem InstInv.writeReg (h : InstInv pl i) (r : Reg) (w : Word) : InstInv pl (i.writeReg pl r w) := by
  cases hb : i.status.busy with
  | true =>
    rw [Inst.writeReg_busy pl r w hb]
    exact h.ignoredWrite
  | false =>
    obtain ⟨hop, hk, ha⟩ := h.idle hb
    obtain ⟨est, eop, ek, ea⟩ := i.storeReg_control pl w r
    rw [Inst.writeReg_idle pl r w hb]
    exact (h.dataOk.storeReg w r).instInv (by rw [eop, hop]) (by rw [est, hb]) (by rw [ek, hk]) (by rw [ea, ha])
      fun hd => by rw [est] at hd ⊢; exact h.fresh_ok hd hb

theorem InstInv.acceptIllegal (h : InstInv pl i) (hb : i.status.busy = false) : InstInv pl i.acceptIllegal := by
  obtain ⟨hop, hk, ha⟩ := h.idle hb
  have hd : i.acceptIllegal.DataOk pl := { h with }
  exact hd.instInv hop hb hk ha (by simp)

theorem InstInv.acceptEncode (h : InstInv pl i) (hb : i.status.busy = false) : InstInv pl i.acceptEncode :=
  { h with
    busy_iff := by simp
    rest := fun _ => (h.idle hb).2
    acc_lt := by simp
    busy_clear := by simp
    fresh_ok := by simp
    encLen_le := by simp
    out0_tail := by simp
    out1_tail := by simp
    out1_le := by simp
    enc_clear := by simp
    dec_clear := by simp
    read_le := by simp }

theorem InstInv.acceptDecode (h : InstInv pl i) : InstInv pl i.acceptDecode :=
  { h with
    busy_iff := by simp
    rest := by simp
    acc_lt := by simp
    busy_clear := by simp
    fresh_ok := by simp
    decCount_le := by simp
    enc_clear := by simp
    dec_clear := by simp
    read_le := by simp }

theorem InstInv.commandWith {f : Inst → Inst} (h : InstInv pl i) (hf : i.status.busy = false → InstInv pl (f i)) :
    InstInv pl (i.commandWith f) := by
  unfold Inst.commandWith
  cases hb : i.status.busy with
  | true => exact h.ignoredWrite
  | false => exact hf hb

/-! ### Engine steps keep the invariant -/

/-- ReadingByte(K + 1): the byte at index K was there, and its payload lies above those before it (10_state R44.3). -/
theorem InstInv.continueWith (h : InstInv pl i) (p : BitVec 7) (hop : i.op = .dec) (hk : i.k.val < 4)
    (hav : i.k.val < i.avail) : InstInv pl (i.continueWith p) :=
  { h with
    rest := fun hn => absurd hop hn
    acc_lt := fun _ => by
      rw [Inst.continueWith_k_val p hk]
      exact Inst.accWith_lt p (h.acc_lt hop)
    read_le := fun _ => by
      rw [Inst.continueWith_k_val p hk]
      exact hav }

/-- DEC_COUNT counts five bytes at most (10_state R35). -/
theorem Inst.DataOk.withCount (h : i.DataOk pl) {n : Nat} (hn : n ≤ 5) :
    ({ i with decCount := BitVec.ofNat 3 n } : Inst).DataOk pl :=
  { h with
    decCount_le := by
      rw [BitVec.toNat_ofNat]
      exact (Nat.mod_le _ _).trans hn }

theorem InstInv.failDecode (h : InstInv pl i) (e : ErrKind) {n : Nat} (hn : n ≤ 5) : InstInv pl (i.failDecode e n) :=
  (h.dataOk.withCount hn).complete e

theorem InstInv.succeedDecode (h : InstInv pl i) (p : BitVec 7) : InstInv pl (i.succeedDecode pl p) := by
  have hd : ({ i with
      decValue := (i.accWith p).setWidth 31
      decCount := BitVec.ofNat 3 (i.k.val + 1)
      decPos := truncAw pl (i.decPos + BitVec.ofNat 32 (i.k.val + 1)) } : Inst).DataOk pl :=
    { h.dataOk.withCount (Nat.succ_le_of_lt i.k.isLt) with pos_lt := truncAw_lt pl _ }
  exact hd.complete .ok

/-- A meaning keeps the invariant of the instance it acts on; CONT needs the byte it reads. -/
theorem InstInv.effect (h : InstInv pl i) {ins : Instr}
    (hc : ∀ p, ins = .cont p → i.op = .dec ∧ i.k.val < 4 ∧ i.k.val < i.avail) : InstInv pl (i.effect pl ins) := by
  cases ins with
  | nop => exact h.commandWith fun _ => h
  | encode => exact h.commandWith h.acceptEncode
  | decode => exact h.commandWith fun _ => h.acceptDecode
  | illegalCmd3 => exact h.commandWith h.acceptIllegal
  | illegalZ w => exact h.commandWith h.acceptIllegal
  | cont p =>
    obtain ⟨hop, hk, hav⟩ := hc p rfl
    exact h.continueWith p hop hk hav
  | term p => exact h.succeedDecode p
  | cont5 p => exact h.failDecode _ le_rfl
  | term5 p => exact h.succeedDecode _
  | ovr5 p => exact h.failDecode _ le_rfl
  | noByte => exact h.failDecode _ i.k.isLt.le

/-- A byte without the continuation bit is its payload. -/
theorem wireByte_zero_toNat (p : BitVec 7) : (wireByte 0#1 p).toNat = p.toNat := by revert p; decide

theorem encLoop_length_le (fuel : Nat) (r : BitVec 31) : (encLoop fuel r).length ≤ fuel := by
  induction fuel generalizing r with
  | zero => exact le_rfl
  | succ fuel ih =>
    rw [encLoop_succ]
    split
    · simp
    · simpa using ih (r >>> 7)

/-- Byte `n` of an encoding holds the bits from 7n up: where only three are left, it is at most 7. -/
theorem encLoop_getD_le (n fuel : Nat) (r : BitVec 31) (h : r.toNat < 2 ^ (7 * n + 3)) :
    ((encLoop fuel r).getD n 0x00#8).toNat ≤ 7 := by
  induction fuel generalizing n r with
  | zero => simp [encLoop]
  | succ fuel ih =>
    have hs : (r >>> 7).toNat = r.toNat / 2 ^ 7 := by rw [BitVec.toNat_ushiftRight, Nat.shiftRight_eq_div_pow]
    rw [encLoop_succ]
    cases n with
    | zero =>
      have h0 : r >>> 7 = 0#31 := BitVec.eq_of_toNat_eq (by simp [hs]; omega)
      simp [h0, wireByte_zero_toNat]
      omega
    | succ n =>
      have hn : (r >>> 7).toNat < 2 ^ (7 * n + 3) := by
        rw [hs, Nat.div_lt_iff_lt_mul (by norm_num), ← Nat.pow_add]
        exact h.trans_le (Nat.pow_le_pow_right (by norm_num) (by omega))
      split
      · simp
      · simpa using ih n (r >>> 7) hn

/-- The results of ENCODE: at most five bytes, with nothing past the last one and three bits in the fifth. -/
theorem Inst.DataOk.encoded (h : i.DataOk pl) {bytes : List Byte} (hlen : bytes.length ≤ 5)
    (hlast : (bytes.getD 4 0x00#8).toNat ≤ 7) :
    ({ i with
        encOut0 := packOut0 bytes, encOut1 := packOut1 bytes, encLen := BitVec.ofNat 3 bytes.length } : Inst).DataOk
      pl := by
  have hl : (BitVec.ofNat 3 bytes.length).toNat = bytes.length := by
    rw [BitVec.toNat_ofNat, Nat.mod_eq_of_lt (by omega)]
  exact
    { h with
      encLen_le := hl.trans_le hlen
      out0_tail := fun n hn h4 => by
        rw [packOut0_byte bytes h4]
        exact List.getD_eq_default _ _ (hl.symm.trans_le hn)
      out1_tail := fun h5 => List.getD_eq_default _ _ (Nat.le_of_lt_succ (hl.symm.trans_lt h5))
      out1_le := hlast }

theorem InstInv.encoderStep (h : InstInv pl i) : InstInv pl i.encoderStep := by
  cases hv : i.encIn.getLsbD 31 with
  | true =>
    rw [Inst.encoderStep_outOfRange hv]
    exact h.dataOk.complete .outOfRange
  | false =>
    have hlast := encLoop_getD_le 4 5 (i.encIn.setWidth 31) (BitVec.isLt _)
    rw [Inst.encoderStep_ok hv]
    exact (h.dataOk.encoded (encLoop_length_le 5 _) hlast).complete .ok

end OneInst

/-! ### The machine's invariant -/

section Machine

variable {s t : State}

theorem Inv.setInst (h : Inv s) {i : Inst} (hi : InstInv s.plat i) : Inv (s.setInst i) :=
  { h with
    insts := fun j hj => by
      obtain rfl | hj := List.mem_cons.1 hj
      · exact hi
      · exact h.insts j (List.mem_cons_of_mem _ hj) }

theorem Inv.withInput (h : Inv s) (evs : List Event) : Inv { s with input := evs } := { h with }

theorem Inv.withRdata (h : Inv s) (v : Word) : Inv { s with rdata := v } := { h with }

/-- Exchanging instances brings in none. -/
theorem State.mem_insts_of_focus {n : Nat} {i : Inst} (h : i ∈ (s.focus n).insts) : i ∈ s.insts := by
  cases n with
  | zero => exact h
  | succ m =>
    cases hp : s.peers[m]? with
    | none => simpa [State.focus, hp] using h
    | some j =>
      rw [State.focus_succ hp] at h
      obtain rfl | h := List.mem_cons.1 h
      · exact List.mem_cons_of_mem _ (List.mem_of_getElem? hp)
      · obtain h | rfl := List.mem_or_eq_of_mem_set h
        · exact List.mem_cons_of_mem _ h
        · exact List.mem_cons_self

theorem Inv.focus (h : Inv s) (n : Nat) : Inv (s.focus n) where
  aw_pos := by simpa using h.aw_pos
  aw_le := by simpa using h.aw_le
  buf_wf := by simpa using h.buf_wf
  buf_below := by simpa using h.buf_below
  insts i hi := by simpa using h.insts i (State.mem_insts_of_focus hi)

/-- Wherever `f` answers a next state from a state of the invariant, that state meets it. -/
def KeepsInv (f : State → Result) : Prop := ∀ s t, Inv s → f s = .next t → Inv t

theorem KeepsInv.atInst {f : State → Result} (hf : KeepsInv f) (n : Nat) : KeepsInv (atInst n f) := by
  intro s t h ht
  unfold Machine.atInst at ht
  split at ht
  · obtain ⟨u, hu, rfl⟩ := onNext_eq_next ht
    exact (hf _ u (h.focus n) hu).focus n
  · cases ht
    exact h

theorem KeepsInv.busAccess {f : Nat → State → Result} (hf : ∀ off, KeepsInv (f off)) (addr size : Nat) :
    KeepsInv (busAccess addr size f) := by
  intro s t h ht
  obtain ⟨-, e⟩ | ⟨n, -, -, ⟨-, e⟩ | ⟨-, e⟩⟩ := busAccess_cases addr size f s
  · rw [e] at ht
    cases ht
    exact h
  · rw [e] at ht
    cases ht
  · rw [e] at ht
    obtain ⟨u, hu, rfl⟩ := onNext_eq_next ht
    exact (hf _ _ u (h.focus n) hu).focus n

/-- A meaning keeps the invariant; CONT does where its byte remains. -/
theorem Inv.exec {ins : Instr} (h : Inv s) (hc : ∀ p, ins = .cont p → s.inst.k.val < s.inst.avail)
    (ht : exec ins s = .next t) : Inv t := by
  obtain ⟨rfl, hd⟩ := exec_eq_next ht
  refine h.setInst (h.inst0.effect ?_)
  rintro p rfl
  obtain ⟨hop, hk⟩ := hd nofun
  exact ⟨hop, of_decide_eq_true hk, hc p rfl⟩

/-- Where the decoder fetches CONT, a byte remains. -/
theorem lt_avail_of_fetch_cont {p : BitVec 7} (h : s.fetch = some (.cont p)) : s.inst.k.val < s.inst.avail := by
  by_contra hk
  rw [fetch_noByte (Nat.le_of_not_lt hk)] at h
  cases h

theorem keepsInv_engineTurn : KeepsInv engineTurn := by
  intro s t h ht
  obtain e | ⟨-, -, e⟩ | ⟨-, -, ins, j, hf, e, -⟩ := engineTurn_cases s
  · rw [e] at ht
    cases ht
    exact h
  · rw [e] at ht
    cases ht
    exact h.setInst h.inst0.encoderStep
  · rw [e] at ht
    exact h.exec (fun p hp => lt_avail_of_fetch_cont (hp ▸ hf)) ht

theorem keepsInv_hostWrite (w : Word) (off : Nat) : KeepsInv (hostWrite off w) := by
  intro s t h ht
  unfold hostWrite at ht
  split at ht
  · exact h.exec (fun p hp => absurd (hp ▸ nofun) (isCommand_decodeCtrl w)) ht
  · cases ht
    exact h.setInst (h.inst0.writeReg _ w)

theorem keepsInv_hostRead (off : Nat) : KeepsInv (hostRead off) := by
  intro s t h ht
  cases ht
  exact h.withRdata _

theorem keepsInv_hostBufWrite (a : Nat) (b : Byte) : KeepsInv (hostBufWrite a b) := by
  intro s t h ht
  unfold hostBufWrite at ht
  split at ht
  · cases ht
  · rename_i ha
    split at ht
    · cases ht
    · cases ht
      exact
        { h with
          buf_wf := Memory.wf_write a b h.buf_wf
          buf_below := Memory.below_write b (Nat.lt_of_not_le ha) h.buf_below }

theorem keepsInv_hostBufRead (a : Nat) : KeepsInv (hostBufRead a) := by
  intro s t h ht
  unfold hostBufRead at ht
  split at ht
  · cases ht
  · cases ht
    exact h.withRdata _

theorem keepsInv_resetInst : KeepsInv resetInst := by
  intro s t h ht
  cases ht
  exact h.setInst (instInv_reset h.inst0.base_aligned)

theorem keepsInv_perform (ev : Event) : KeepsInv (perform ev) := by
  cases ev with
  | busWrite addr size w => exact .busAccess (keepsInv_hostWrite w) addr size
  | busRead addr size => exact .busAccess keepsInv_hostRead addr size
  | bufWrite a b => exact keepsInv_hostBufWrite a b
  | bufRead a => exact keepsInv_hostBufRead a
  | engine n => exact keepsInv_engineTurn.atInst n
  | reset n => exact keepsInv_resetInst.atInst n

theorem keepsInv_idleTurn : KeepsInv idleTurn := by
  intro s t h ht
  unfold idleTurn at ht
  split at ht
  · rename_i n _
    exact keepsInv_engineTurn.atInst n s t h ht
  · cases ht
    exact h

end Machine

/-- Settles O50: the next event keeps the invariant, and so does the engine that moves where none waits. -/
theorem stepKeepsInvariant : Obligations.StepKeepsInvariant := by
  intro s t h ht
  cases hi : s.input with
  | nil => exact keepsInv_idleTurn s t h (step_idle hi ▸ ht)
  | cons ev rest => exact keepsInv_perform ev _ t (h.withInput rest) (step_event hi ▸ ht)

/-- Settles O49: every register and internal field is 0, and BUF lists nothing. -/
theorem invariantAtReset : Obligations.InvariantAtReset where
  aw_pos := by decide
  aw_le := by decide
  buf_wf := Memory.wf_reset
  buf_below := rfl
  insts i hi := by
    obtain rfl := List.mem_singleton.1 hi
    exact instInv_reset rfl

/-- Settles O48: a reset of instance 0 writes that instance alone. -/
theorem resetClearsTheInstance : Obligations.ResetClearsTheInstance := by
  intro s
  refine ⟨?_, rfl⟩
  rw [step_withEvent]
  exact atInst_zero resetInst s

/-! ### Register reads and ignored writes -/

/-- An AW-bit address has no bit at AW or above. -/
theorem getLsbD_eq_false_of_lt_bufSize {pl : Platform} {w : Word} {b : Nat} (hw : w.toNat < bufSize pl) (hb : pl.aw ≤ b) :
    w.getLsbD b = false :=
  Nat.testBit_lt_two_pow (hw.trans_le (Nat.pow_le_pow_right (by norm_num) hb))

/-- Settles O17: the words read are the cursor and the limit, both below 2^AW by the invariant. -/
theorem cursorBitsAboveAwReadZero : Obligations.CursorBitsAboveAwReadZero := by
  intro s b h hb
  refine ⟨_, _, step_hostRead (by omega) rfl, step_hostRead (by omega) rfl, ?_, ?_⟩
  · exact getLsbD_eq_false_of_lt_bufSize h.inst0.pos_lt hb
  · exact getLsbD_eq_false_of_lt_bufSize h.inst0.limit_lt hb

/-- A host write to a register that no write changes: only IGN, and only while BUSY = 1 (40_control R105, R107). -/
theorem step_hostWrite_readOnly {s : State} {off : Nat} (w : Word) (h : off < 0x100) (h4 : off % 4 = 0)
    (hc : regAt off ≠ .ctrl) (hs : s.inst.storeReg s.plat w (regAt off) = s.inst) :
    step (s.withEvent (.busWrite (s.inst.base + off) 4 w)) =
      if s.inst.status.busy = true then
        .next { s with inst := { s.inst with status := { s.inst.status with ign := true } } }
      else .next s := by
  rw [step_hostWrite w h h4, hostWrite, if_neg hc, Inst.writeReg, hs]
  split <;> rfl

theorem Status.word_fields (st : Status) :
    st.word.getLsbD 0 = st.busy ∧ st.word.getLsbD 1 = st.done ∧ st.word.extractLsb' 2 3 = st.err.code ∧
      st.word.getLsbD 5 = st.ign ∧ st.word.extractLsb' 6 26 = 0#26 := by
  obtain ⟨busy, done, err, ign⟩ := st
  simp only [Status.word]
  generalize err.code = e
  revert busy done ign e
  decide

/-- Settles O15: a read returns the word laid out above, and STATUS is a register no write changes. -/
theorem statusWordLayout : Obligations.StatusWordLayout := by
  intro s
  refine ⟨s.inst.status.word_fields, ⟨rfl, rfl, rfl, rfl, rfl⟩, step_hostRead (by omega) rfl, fun w => ?_⟩
  exact step_hostWrite_readOnly w (by omega) rfl nofun rfl

/-- Offsets 0x28 and up hold no register (10_state R21, R36). -/
theorem regAt_reserved {off : Nat} (h : 0x28 ≤ off) : regAt off = .reserved := by
  simp only [regAt]
  repeat rw [if_neg (by omega)]

/-- Settles O16: every offset from 0x28 is the reserved register, which reads 0 and no write changes. -/
theorem reservedOffsets : Obligations.ReservedOffsets := by
  intro s off hlo hhi h4
  have hr := regAt_reserved hlo
  refine ⟨?_, fun w => step_hostWrite_readOnly w (by omega) h4 (by simp [hr]) (by simp [hr, Inst.storeReg])⟩
  rw [step_hostRead (by omega) h4, hr]
  rfl

end Sys2Proof.Machine
end

section
/-! SUPPORT. The proofs of the statements about memory (20_memory): accesses to the register window, host accesses to BUF,
and the bytes a decode reads. -/

namespace Sys2Proof.Machine

/-! ### Accesses to the register window -/

/-- An access that reaches a window but is no aligned word of it faults (60_exceptions R176.1). -/
theorem busAccess_misaligned {s : State} {addr size n : Nat} {i : Inst} (f : Nat → State → Result)
    (hi : s.instAt n = some i) (ht : s.target addr size = some n)
    (ha : ¬ (size = 4 ∧ i.base ≤ addr ∧ (addr - i.base) % 4 = 0)) :
    busAccess addr size f s = .fault .badBusAccess := by
  obtain ⟨hnone, -⟩ | ⟨m, hm, -, ⟨-, e⟩ | ⟨hal, -⟩⟩ := busAccess_cases addr size f s
  · rw [hnone] at ht
    cases ht
  · exact e
  · obtain rfl : m = n := Option.some.inj (hm.symm.trans ht)
    rw [State.focus_inst hi] at hal
    exact absurd ((i.aligned_iff addr size).1 hal) ha

/-- Both host accesses of the window fault where they are no aligned word of the instance they reach. -/
theorem step_misaligned {s : State} {addr size n : Nat} {i : Inst} (w : Word) (hi : s.instAt n = some i)
    (ht : s.target addr size = some n) (ha : ¬ (size = 4 ∧ i.base ≤ addr ∧ (addr - i.base) % 4 = 0)) :
    step (s.withEvent (.busWrite addr size w)) = .fault .badBusAccess ∧
      step (s.withEvent (.busRead addr size)) = .fault .badBusAccess :=
  ⟨busAccess_misaligned _ hi ht ha, busAccess_misaligned _ hi ht ha⟩

/-- An access that touches the window of instance 0 reaches it: no instance comes before. -/
theorem State.target_zero {s : State} {addr size : Nat} (h : s.inst.touched addr size = true) :
    s.target addr size = some 0 :=
  (State.target_iff addr size s.instAt_zero).2 ⟨h, fun m _ hm => absurd hm m.not_lt_zero⟩

/-- Settles O18: the access reaches the first window it touches, and faults there. -/
theorem badWindowAccessFaults : Obligations.BadWindowAccessFaults := by
  intro s addr size n i w hi
  refine ⟨?_, step_misaligned w hi, fun hsize hlo hhi => step_misaligned w s.instAt_zero ?_⟩
  · simp only [State.target_iff addr size hi, Inst.touched_iff, ← Bool.not_eq_true]
  · exact State.target_zero ((s.inst.touched_iff addr size).2 ⟨hsize, hlo, hhi⟩)

/-! ### Host accesses to BUF -/

/-- Which addresses a running DECODE may read, in plain arithmetic (60_exceptions R176.2). -/
theorem Inst.usesAddr_iff (a : Nat) (i : Inst) :
    i.usesAddr a = true ↔ i.op = .dec ∧ i.decPos.toNat ≤ a ∧ a < i.decLimit.toNat := by
  simp [Inst.usesAddr, and_assoc]

theorem hostBufWrite_outside {s : State} {a : Nat} (b : Byte) (h : bufSize s.plat ≤ a) :
    hostBufWrite a b s = .fault .noSuchBufAddress := by rw [hostBufWrite, if_pos h]

theorem hostBufWrite_inUse {s : State} {a : Nat} (b : Byte) (h : a < bufSize s.plat)
    (hu : ∃ i ∈ s.insts, i.op = .dec ∧ i.decPos.toNat ≤ a ∧ a < i.decLimit.toNat) :
    hostBufWrite a b s = .fault .bufWriteInUse := by
  have hu : s.insts.any (Inst.usesAddr a) = true := by simpa only [List.any_eq_true, Inst.usesAddr_iff] using hu
  rw [hostBufWrite, if_neg h.not_ge, if_pos hu]

theorem hostBufWrite_free {s : State} {a : Nat} (b : Byte) (h : a < bufSize s.plat)
    (hu : ∀ i ∈ s.insts, i.op = .dec → ¬ (i.decPos.toNat ≤ a ∧ a < i.decLimit.toNat)) :
    hostBufWrite a b s = .next { s with buf := s.buf.write a b } := by
  have hu : ¬ s.insts.any (Inst.usesAddr a) = true := by
    simpa only [List.any_eq_true, Inst.usesAddr_iff, not_exists, not_and] using hu
  rw [hostBufWrite, if_neg h.not_ge, if_neg hu]

theorem hostBufWrite_eq_next {s t : State} {a : Nat} {b : Byte} (h : hostBufWrite a b s = .next t) :
    t = { s with buf := s.buf.write a b } ∧ a < bufSize s.plat ∧ ∀ i ∈ s.insts, i.usesAddr a = false := by
  unfold hostBufWrite at h
  split at h
  · cases h
  · rename_i ha
    split at h
    · cases h
    · rename_i hu
      cases h
      exact ⟨rfl, Nat.lt_of_not_le ha, by simpa using hu⟩

/-- Settles O19: one clause for each branch of the host's write. -/
theorem hostBufWrites : Obligations.HostBufWrites := by
  intro s a b
  refine ⟨hostBufWrite_outside b, hostBufWrite_inUse b, fun ha hwf hu => ⟨s.buf.write a b, ?_, ?_, ?_, ?_⟩⟩
  · exact hostBufWrite_free b ha hu
  · exact Memory.wf_write a b hwf
  · exact Memory.read_write_same a b hwf
  · exact fun c hc => Memory.read_write_other s.buf b hc

/-- A byte as the host reads it: zeros in front of it. -/
theorem setWidth32_byte (b : Byte) : b.setWidth 32 = (0#24 ++ b : Word) := by revert b; decide

theorem hostBufRead_inside {s : State} {a : Nat} (h : a < bufSize s.plat) :
    hostBufRead a s = .next { s with rdata := 0#24 ++ s.buf.read a } := by
  rw [hostBufRead, if_neg h.not_ge, setWidth32_byte]

/-- Settles O20: the read finds the memory the write left. -/
theorem bufReadReturnsLastWrite : Obligations.BufReadReturnsLastWrite := by
  intro s t a b hwf h
  obtain ⟨rfl, ha, -⟩ := hostBufWrite_eq_next (s := s) h
  have read {c : Nat} (hc : c < bufSize s.plat) := hostBufRead_inside (s := { s with buf := s.buf.write a b }) hc
  refine ⟨(read ha).trans ?_, fun c hc hca => (read hc).trans ?_⟩
  · rw [Memory.read_write_same a b hwf]
  · rw [Memory.read_write_other s.buf b hca]

/-! ### What leaves BUF as it is -/

/-- All an event can leave: one instance changed, one byte of BUF changed by a host BUF write, or the block as it was with
what the host last read. -/
theorem perform_eq_next {ev : Event} {s t : State} (h : perform ev s = .next t) :
    (∃ n j, n < s.numInst ∧ s.eventInst ev = some n ∧ t = ((s.focus n).setInst j).focus n) ∨
    (∃ a b, ev = .bufWrite a b ∧ t = { s with buf := s.buf.write a b }) ∨
    ∃ v, t = { s with rdata := v } := by
  obtain ⟨n, j, hn, hev, e⟩ | ⟨v, -, e⟩ | ⟨a, b, hev, -, -, e⟩ | e | ⟨r, e, -⟩ := perform_cases ev s
  all_goals rw [e] at h; cases h
  · exact .inl ⟨n, j, hn, hev, rfl⟩
  · exact .inr (.inr ⟨v, rfl⟩)
  · exact .inr (.inl ⟨a, b, hev, rfl⟩)
  · exact .inr (.inr ⟨s.rdata, rfl⟩)

/-- Of the events only a host BUF write changes BUF. -/
theorem perform_buf {ev : Event} {s t : State} (h : perform ev s = .next t) (hw : ∀ a b, ev ≠ .bufWrite a b) :
    t.buf = s.buf := by
  obtain ⟨n, j, -, -, rfl⟩ | ⟨a, b, hev, -⟩ | ⟨v, rfl⟩ := perform_eq_next h
  · simp
  · exact absurd hev (hw a b)
  · rfl

theorem idleTurn_buf {s t : State} (h : idleTurn s = .next t) : t.buf = s.buf := by
  obtain ⟨n, j, -, -, -, e⟩ | ⟨-, e⟩ := idleTurn_cases s
  all_goals rw [e] at h; cases h
  · simp
  · rfl

/-- Settles O21: neither the next event nor, where none waits, an engine's own step changes BUF. -/
theorem blockNeverWritesBuf : Obligations.BlockNeverWritesBuf := by
  intro s t h hw
  have hbuf : t.buf = s.buf := by
    cases hi : s.input with
    | nil =>
      rw [step_idle hi] at h
      exact idleTurn_buf h
    | cons ev rest =>
      rw [step_event hi] at h
      exact perform_buf (s := { s with input := rest }) h fun a b hev => hw a b rest (hev ▸ hi)
  exact ⟨hbuf, fun a => by rw [hbuf]⟩

/-! ### The bytes a decode consumes -/

/-- The pure decoder never reports fewer bytes than the rounds behind it. -/
theorem le_count_decLoop (b : Memory) (pos avail fuel k : Nat) (acc : BitVec 35) (h : k + fuel ≤ 5) :
    k ≤ (decLoop b pos avail fuel k acc).count := by
  induction fuel generalizing k acc with
  | zero => exact h
  | succ fuel ih =>
    rw [decLoop_succ]
    split
    · exact le_rfl
    · split
      · exact (Nat.le_succ k).trans (ih (k + 1) _ (by omega))
      · split
        · show k ≤ 5
          omega
        · exact Nat.le_succ k

/-- A round that reads a byte counts it. -/
theorem lt_count_decLoop_succ (b : Memory) {pos avail fuel k : Nat} (acc : BitVec 35) (h : k + (fuel + 1) ≤ 5)
    (hk : k < avail) : k < (decLoop b pos avail (fuel + 1) k acc).count := by
  rw [decLoop_succ, if_neg hk.not_ge]
  split
  · exact le_count_decLoop b pos avail fuel (k + 1) _ (by omega)
  · split
    · show k < 5
      omega
    · exact Nat.lt_succ_self k

/-- The rounds from k on give the same on a buffer that agrees on the bytes they count. -/
theorem decLoop_congr {b c : Memory} {pos avail fuel k : Nat} {acc : BitVec 35} (h : k + fuel ≤ 5)
    (hc : ∀ a, pos ≤ a → a < pos + (decLoop b pos avail fuel k acc).count → c.read a = b.read a) :
    decLoop c pos avail fuel k acc = decLoop b pos avail fuel k acc := by
  induction fuel generalizing k acc with
  | zero => rfl
  | succ fuel ih =>
    by_cases hk : avail ≤ k
    · rw [decLoop_succ, decLoop_succ, if_pos hk, if_pos hk]
    · have hread : c.read (pos + k) = b.read (pos + k) :=
        hc _ (Nat.le_add_right pos k) (Nat.add_lt_add_left (lt_count_decLoop_succ b acc h (Nat.lt_of_not_le hk)) pos)
      rw [decLoop_succ, if_neg hk] at hc
      rw [decLoop_succ, decLoop_succ, if_neg hk, if_neg hk, hread]
      by_cases hx : continues (b.read (pos + k)) = true
      · rw [if_pos hx] at hc
        rw [if_pos hx, if_pos hx]
        exact ih (by omega) hc
      · rw [if_neg hx, if_neg hx]

/-- Settles O42: the whole decode is the rounds from 0 on. -/
theorem onlyConsumedBytesMatter : Obligations.OnlyConsumedBytesMatter :=
  fun _ _ _ _ hc => decLoop_congr le_rfl hc

/-! ### A running DECODE among other events -/

/-- The decoder's next byte depends on its cursor, its limit, K, the platform, and the byte at the cursor if one remains. -/
theorem State.nextByte_congr {s t : State} (hplat : t.plat = s.plat) (hpos : t.inst.decPos = s.inst.decPos)
    (hlim : t.inst.decLimit = s.inst.decLimit) (hk : t.inst.k = s.inst.k)
    (hread : s.inst.k.val < s.inst.avail → t.buf.read s.byteAddr = s.buf.read s.byteAddr) :
    t.nextByte = s.nextByte := by
  have hav : t.inst.avail = s.inst.avail := by rw [Inst.avail_eq, Inst.avail_eq, hpos, hlim]
  have haddr : t.byteAddr = s.byteAddr := by rw [State.byteAddr, State.byteAddr, hplat, hpos, hk]
  unfold State.nextByte
  rw [hav, haddr, hplat, hk]
  by_cases h : s.inst.avail ≤ s.inst.k.val
  · rw [if_pos h, if_pos h]
  · rw [hread (Nat.lt_of_not_le h)]

/-- The byte a running DECODE reads next is one of those it uses. -/
theorem State.usesAddr_byteAddr {s : State} (hop : s.inst.op = .dec) (hlim : s.inst.decLimit.toNat < bufSize s.plat)
    (hk : s.inst.k.val < s.inst.avail) : s.inst.usesAddr s.byteAddr = true := by
  rw [Inst.usesAddr_iff, State.byteAddr_eq hlim hk]
  exact ⟨hop, Nat.le_add_right _ _, (Inst.lt_avail_iff s.inst).1 hk⟩

/-- No event changes a byte that some instance is decoding (20_memory R73). -/
theorem perform_read_of_usesAddr {s t : State} {ev : Event} {i : Inst} {a : Nat} (h : perform ev s = .next t)
    (hi : i ∈ s.insts) (hu : i.usesAddr a = true) : t.buf.read a = s.buf.read a := by
  by_cases hw : ∃ c b, ev = .bufWrite c b
  · obtain ⟨c, b, rfl⟩ := hw
    obtain ⟨rfl, -, hfree⟩ := hostBufWrite_eq_next h
    have hne : a ≠ c := by
      rintro rfl
      rw [hfree i hi] at hu
      cases hu
    exact Memory.read_write_other s.buf b hne
  · rw [perform_buf h fun c b hev => hw ⟨c, b, hev⟩]

theorem perform_plat {ev : Event} {s t : State} (h : perform ev s = .next t) : t.plat = s.plat := by
  obtain ⟨n, j, -, -, rfl⟩ | ⟨a, b, -, rfl⟩ | ⟨v, rfl⟩ := perform_eq_next h
  · simp
  · rfl
  · rfl

/-- A write that reaches a busy instance 0 and does not fault is an ignored write (40_control R105). -/
theorem perform_busWrite_busy {s t : State} {addr size : Nat} {w : Word} (hb : s.inst.status.busy = true)
    (ht : s.target addr size = some 0) (h : perform (.busWrite addr size w) s = .next t) :
    t = s.setInst s.inst.ignoredWrite := by
  have e : perform (.busWrite addr size w) s = windowAccess addr size (fun off => hostWrite off w) s := by
    simp [perform, busAccess, ht]
  rw [e, windowAccess] at h
  split at h
  · rw [hostWrite_busy _ w hb] at h
    cases h
    rfl
  · cases h

/-- A change of another instance's fields leaves instance 0. -/
theorem State.focus_setInst_focus_inst {s : State} {n : Nat} (j : Inst) (hn : n < s.numInst) (h0 : n ≠ 0) :
    (((s.focus n).setInst j).focus n).inst = s.inst := by
  have h := State.instAt_focus_setInst (m := 0) j hn
  rw [if_neg h0.symm] at h
  exact Option.some.inj h

/-- Of a busy instance 0 every event but its engine's turn and its reset leaves all but IGN. -/
theorem perform_inst_of_busy {ev : Event} {s t : State} (hb : s.inst.status.busy = true) (he : ev ≠ .engine 0)
    (hr : ev ≠ .reset 0) (h : perform ev s = .next t) : t.inst = s.inst ∨ t.inst = s.inst.ignoredWrite := by
  obtain ⟨n, j, hn, hev, e⟩ | ⟨a, b, -, rfl⟩ | ⟨v, rfl⟩ := perform_eq_next h
  · by_cases h0 : n = 0
    · subst h0
      cases ev with
      | busWrite addr size w =>
        right
        rw [perform_busWrite_busy hb hev h, State.setInst_inst]
      | busRead addr size | bufWrite a b | bufRead a => cases hev
      | engine m => exact absurd (congrArg Event.engine (Option.some.inj hev)) he
      | reset m => exact absurd (congrArg Event.reset (Option.some.inj hev)) hr
    · left
      rw [e]
      exact State.focus_setInst_focus_inst j hn h0
  · exact .inl rfl
  · exact .inl rfl

/-- Settles O43: the instance keeps all but IGN, and the byte at its cursor is one no host write may change. -/
theorem eventsDoNotDisturbDecode : Obligations.EventsDoNotDisturbDecode := by
  intro s t ev hinv hop he hr h
  have hi := hinv.inst0
  have hinst : ∃ g : Bool, t.inst = { s.inst with status := { s.inst.status with ign := g } } := by
    obtain e | e := perform_inst_of_busy (hi.busy_iff.2 (by simp [hop])) he hr h
    · exact ⟨s.inst.status.ign, e⟩
    · exact ⟨true, e⟩
  refine ⟨hinst, ?_⟩
  obtain ⟨g, hg⟩ := hinst
  refine State.nextByte_congr (perform_plat h) (by rw [hg]) (by rw [hg]) (by rw [hg]) fun hk => ?_
  exact perform_read_of_usesAddr h List.mem_cons_self (State.usesAddr_byteAddr hop hi.limit_lt hk)

end Sys2Proof.Machine
end

section
/-! SUPPORT. The proofs of the statements about encodings (30_encoding): the opcode maps and what they invert, the meanings
of the byte classes, the wire sequences the decoder accepts, and host programs. -/

namespace Sys2Proof

/-! ### The command opcode map -/

/-- A word is a command of R86 or has a bit above CMD. -/
theorem zField_ne_zero_iff (w : Word) :
    w.extractLsb' 2 30 ≠ 0#30 ↔ w ≠ 0x00000000#32 ∧ w ≠ 0x00000001#32 ∧ w ≠ 0x00000002#32 ∧ w ≠ 0x00000003#32 := by
  have hw := w.isLt
  simp only [ne_eq, ← BitVec.toNat_inj, BitVec.extractLsb'_toNat, Nat.shiftRight_eq_div_pow, BitVec.toNat_ofNat]
  omega

theorem decodeCtrl_illegalZ {w : Word} (h : w.extractLsb' 2 30 ≠ 0#30) : decodeCtrl w = .illegalZ w := by
  obtain ⟨h0, h1, h2, h3⟩ := (zField_ne_zero_iff w).1 h
  rw [decodeCtrl, if_neg h0, if_neg h1, if_neg h2, if_neg h3]

/-- A command word decodes to an instruction of the table that encodes to it. -/
theorem decodeCtrl_spec (k : Fin 5) (w : Word) :
    (decodeCtrl w).wellFormed = true ∧ (decodeCtrl w).fitsAt k = true ∧ encodeInstr (decodeCtrl w) = .ctrl w := by
  unfold decodeCtrl
  split; · subst w; exact ⟨rfl, rfl, rfl⟩
  split; · subst w; exact ⟨rfl, rfl, rfl⟩
  split; · subst w; exact ⟨rfl, rfl, rfl⟩
  split; · subst w; exact ⟨rfl, rfl, rfl⟩
  rename_i h0 h1 h2 h3
  exact ⟨bne_iff_ne.2 ((zField_ne_zero_iff w).2 ⟨h0, h1, h2, h3⟩), rfl, rfl⟩

/-! ### The byte-class map -/

section ByteClasses

variable {k : Fin 5} {b : Byte}

theorem decodeByte_cont (hk : k.val < 4) (hc : continues b = true) : decodeByte k b = .cont (payload b) := by
  rw [decodeByte, if_pos hk, if_pos hc]

theorem decodeByte_term (hk : k.val < 4) (hc : continues b = false) : decodeByte k b = .term (payload b) := by
  rw [decodeByte, if_pos hk, if_neg (ne_true_of_eq_false hc)]

theorem decodeByte_cont5 (hk : k.val = 4) (hc : continues b = true) : decodeByte k b = .cont5 (payload b) := by
  rw [decodeByte, if_neg hk.not_lt, if_pos hc]

theorem decodeByte_ovr5 (hk : k.val = 4) (hc : continues b = false) (hp : 7 < (payload b).toNat) :
    decodeByte k b = .ovr5 (payload b) := by
  rw [decodeByte, if_neg hk.not_lt, if_neg (ne_true_of_eq_false hc), if_pos hp]

theorem decodeByte_term5 (hk : k.val = 4) (hc : continues b = false) (hp : ¬ 7 < (payload b).toNat) :
    decodeByte k b = .term5 (b.extractLsb' 0 3) := by
  rw [decodeByte, if_neg hk.not_lt, if_neg (ne_true_of_eq_false hc), if_neg hp]

end ByteClasses

/-- The five cases of the byte-class map (30_encoding R87). -/
theorem decodeByte_cases (k : Fin 5) (b : Byte) :
    (k.val < 4 ∧ continues b = true ∧ decodeByte k b = .cont (payload b)) ∨
    (k.val < 4 ∧ continues b = false ∧ decodeByte k b = .term (payload b)) ∨
    (k.val = 4 ∧ continues b = true ∧ decodeByte k b = .cont5 (payload b)) ∨
    (k.val = 4 ∧ continues b = false ∧ 7 < (payload b).toNat ∧ decodeByte k b = .ovr5 (payload b)) ∨
    (k.val = 4 ∧ continues b = false ∧ ¬ 7 < (payload b).toNat ∧ decodeByte k b = .term5 (b.extractLsb' 0 3)) := by
  by_cases hk : k.val < 4
  · cases hc : continues b with
    | true => exact .inl ⟨hk, rfl, decodeByte_cont hk hc⟩
    | false => exact .inr (.inl ⟨hk, rfl, decodeByte_term hk hc⟩)
  · have hk : k.val = 4 := by omega
    cases hc : continues b with
    | true => exact .inr (.inr (.inl ⟨hk, rfl, decodeByte_cont5 hk hc⟩))
    | false =>
      by_cases hp : 7 < (payload b).toNat
      · exact .inr (.inr (.inr (.inl ⟨hk, rfl, hp, decodeByte_ovr5 hk hc hp⟩)))
      · exact .inr (.inr (.inr (.inr ⟨hk, rfl, hp, decodeByte_term5 hk hc hp⟩)))

/-- A byte that continues is the byte of its payload with bit 7 set, and one that does not, with bit 7 clear. -/
theorem wireByte_payload_of_continues {b : Byte} (h : continues b = true) : wireByte 1#1 (payload b) = b := by
  revert b; decide

theorem wireByte_payload_of_not_continues {b : Byte} (h : continues b = false) : wireByte 0#1 (payload b) = b := by
  revert b; decide

/-- The operand of TERM5 is what a payload of at most 7 leaves to write. -/
theorem append_low_eq_payload {b : Byte} (h : ¬ 7 < (payload b).toNat) : (0#4 ++ b.extractLsb' 0 3 : BitVec 7) = payload b := by
  revert b; decide

theorem payload_wireByte_low (p : BitVec 3) :
    ¬ 7 < (payload (wireByte 0#1 (0#4 ++ p))).toNat ∧ (wireByte 0#1 (0#4 ++ p)).extractLsb' 0 3 = p := by
  revert p; decide

/-- A byte decodes to an instruction of the table that encodes to it. -/
theorem decodeByte_spec (k : Fin 5) (b : Byte) :
    (decodeByte k b).wellFormed = true ∧ (decodeByte k b).fitsAt k = true ∧ encodeInstr (decodeByte k b) = .wire b := by
  have hk := Machine.decodeByte_fitsAt k b
  obtain ⟨-, hc, e⟩ | ⟨-, hc, e⟩ | ⟨-, hc, e⟩ | ⟨-, hc, hp, e⟩ | ⟨-, hc, hp, e⟩ := decodeByte_cases k b
  all_goals rw [e] at hk ⊢
  · exact ⟨rfl, hk, congrArg Encoded.wire (wireByte_payload_of_continues hc)⟩
  · exact ⟨rfl, hk, congrArg Encoded.wire (wireByte_payload_of_not_continues hc)⟩
  · exact ⟨rfl, hk, congrArg Encoded.wire (wireByte_payload_of_continues hc)⟩
  · exact ⟨decide_eq_true hp, hk, congrArg Encoded.wire (wireByte_payload_of_not_continues hc)⟩
  · refine ⟨rfl, hk, congrArg Encoded.wire ?_⟩
    rw [append_low_eq_payload hp, wireByte_payload_of_not_continues hc]

/-! ### Decoding and encoding invert each other -/

/-- Settles O1: case by case, a command word by its Z field and a byte class by its index, its continuation bit and its payload. -/
theorem decodeOfEncoded : Obligations.DecodeOfEncoded := by
  intro i k hwf hk
  cases i with
  | nop | encode | decode | illegalCmd3 | noByte => rfl
  | illegalZ w => exact decodeCtrl_illegalZ (bne_iff_ne.1 hwf)
  | cont p => exact (decodeByte_cont (of_decide_eq_true hk) (by simp)).trans (by simp)
  | term p => exact (decodeByte_term (of_decide_eq_true hk) (by simp)).trans (by simp)
  | cont5 p => exact (decodeByte_cont5 (of_decide_eq_true hk) (by simp)).trans (by simp)
  | ovr5 p =>
    have hp : 7 < p.toNat := of_decide_eq_true hwf
    exact (decodeByte_ovr5 (of_decide_eq_true hk) (by simp) (by simpa using hp)).trans (by simp)
  | term5 p =>
    obtain ⟨hp, hlow⟩ := payload_wireByte_low p
    exact (decodeByte_term5 (of_decide_eq_true hk) (by simp) hp).trans (by rw [hlow])

/-- What a form decodes to is an instruction of the table at that index, and encodes to the form. -/
theorem decodeInstr_spec (k : Fin 5) (e : Encoded) :
    (decodeInstr k e).wellFormed = true ∧ (decodeInstr k e).fitsAt k = true ∧ encodeInstr (decodeInstr k e) = e := by
  cases e with
  | ctrl w => exact decodeCtrl_spec k w
  | wire b => exact decodeByte_spec k b
  | nothing => exact ⟨rfl, rfl, rfl⟩

/-- Settles O2: the one instruction is what the form decodes to; any other that encodes to the form decodes back from it. -/
theorem everyFormIsOneInstr : Obligations.EveryFormIsOneInstr := by
  intro k e
  refine ⟨decodeInstr k e, decodeInstr_spec k e, fun j hwf hk he => ?_⟩
  rw [← he, decodeOfEncoded j k hwf hk]

/-- The match and mask columns of 30_encoding R87 test the continuation bit and the size of the payload. -/
theorem mask_iff (b : Byte) :
    (b &&& 0x80#8 = 0x80#8 ↔ continues b = true) ∧ (b &&& 0x80#8 = 0x00#8 ↔ continues b = false) ∧
      (b &&& 0xF8#8 = 0x00#8 ↔ continues b = false ∧ ¬ 7 < (payload b).toNat) := by
  revert b; decide

/-- Settles O3: each row's match and mask say what its class needs. -/
theorem byteClassesByMatchAndMask : Obligations.ByteClassesByMatchAndMask := by
  intro k b
  obtain ⟨hcont, hend, hlow⟩ := mask_iff b
  rw [ne_eq, hcont, hend, hlow]
  refine ⟨decodeByte_cont, decodeByte_term, decodeByte_cont5, fun hk h => decodeByte_term5 hk h.1 h.2, fun hk hc h => ?_⟩
  exact decodeByte_ovr5 hk hc (by_contra fun hp => h ⟨hc, hp⟩)

/-- Settles O4: eleven closed instances of the opcode map. -/
theorem sampleFormsDecode : Obligations.SampleFormsDecode := by
  unfold Obligations.SampleFormsDecode
  decide

end Sys2Proof

namespace Sys2Proof.Machine

/-! ### The meanings of the byte classes -/

/-- What is shifted in for payload `p` at index K, as ACC takes it. -/
theorem Inst.accWith_eq (p : BitVec 7) (i : Inst) : i.accWith p = i.acc ||| ((0#28 ++ p) <<< (7 * i.k.val)) := by
  rw [Inst.accWith, setWidth35_payload]

/-- DEC_VALUE is ACC[30:0]. -/
theorem setWidth31_eq_extractLsb' (a : BitVec 35) : a.setWidth 31 = a.extractLsb' 0 31 :=
  BitVec.setWidth_eq_extractLsb' (by omega)

/-- Settles O27: K + 1 is no wrap below the last index. -/
theorem contReadsOn : Obligations.ContReadsOn := by
  intro s p hop hk
  refine ⟨s.inst.k + 1, Inst.continueWith_k_val p hk, ?_⟩
  rw [← Inst.accWith_eq]
  exact onDecoder_fits _ hop ((earlyIndex_iff _).2 hk)

/-- Settles O28: the class ends the DECODE with its payload in ACC. -/
theorem termCompletes : Obligations.TermCompletes := by
  intro s p hop hk
  rw [← Inst.accWith_eq, ← setWidth31_eq_extractLsb']
  exact onDecoder_fits _ hop ((earlyIndex_iff _).2 hk)

/-- Settles O29: as TERM, at the index 4. -/
theorem term5Completes : Obligations.Term5Completes := by
  intro s p hop hk
  have e : exec (.term5 p) s = .next (s.setInst (s.inst.succeedDecode s.plat (p.setWidth 7))) :=
    onDecoder_fits _ hop ((lastIndex_iff _).2 hk)
  rw [e, Inst.succeedDecode, Inst.accWith, hk, setWidth35_low, setWidth31_eq_extractLsb']
  rfl

/-- Settles O30: both classes are found at index 4, and end the DECODE with the five bytes read. -/
theorem fifthByteFailures : Obligations.FifthByteFailures := by
  intro s p hop hk
  have hlast := (lastIndex_iff _).2 hk
  exact ⟨onDecoder_fits _ hop hlast, onDecoder_fits _ hop hlast⟩

/-- Settles O31: NOBYTE is found at every index. -/
theorem noByteTruncates : Obligations.NoByteTruncates :=
  fun _ hop => onDecoder_fits _ hop rfl

end Sys2Proof.Machine
end

section
/-! SUPPORT. The wire sequences the decoder accepts (30_encoding R82, R85, R91), and which of them the encoder writes. -/

namespace Sys2Proof.Machine

/-! ### The value the payloads assemble to -/

theorem assembled_succ (b : Memory) (pos n : Nat) :
    assembled b pos (n + 1) = assembled b pos n + (payload (b.read (pos + n))).toNat * 2 ^ (7 * n) := rfl

theorem assembled_lt (b : Memory) (pos n : Nat) : assembled b pos n < 2 ^ (7 * n) := by
  induction n with
  | zero => simp [assembled]
  | succ n ih =>
    have hp : (payload (b.read (pos + n))).toNat + 1 ≤ 2 ^ 7 := (payload _).isLt
    calc assembled b pos (n + 1) < ((payload (b.read (pos + n))).toNat + 1) * 2 ^ (7 * n) := by
          rw [assembled_succ]; linarith
      _ ≤ 2 ^ 7 * 2 ^ (7 * n) := Nat.mul_le_mul_right _ hp
      _ = 2 ^ (7 * (n + 1)) := by ring

/-- The value without its first group of 7 bits. -/
theorem assembled_succ_eq_first (b : Memory) (pos n : Nat) :
    assembled b pos (n + 1) = (payload (b.read pos)).toNat + 128 * assembled b (pos + 1) n := by
  induction n with
  | zero => simp [assembled]
  | succ n ih =>
    rw [assembled_succ, ih, assembled_succ b (pos + 1), Nat.add_right_comm pos 1 n, ← Nat.add_assoc pos n 1]
    ring

/-- A value of 0 has no payload but 0. -/
theorem payload_eq_zero_of_assembled {b : Memory} {pos n : Nat} (h : assembled b pos (n + 1) = 0) :
    payload (b.read (pos + n)) = 0#7 := by
  obtain ⟨-, h⟩ := Nat.add_eq_zero_iff.1 (assembled_succ b pos n ▸ h)
  exact BitVec.eq_of_toNat_eq ((Nat.mul_eq_zero.1 h).resolve_right (Nat.two_pow_pos _).ne')

/-- ORing a payload in assembles one byte more. -/
theorem assembled_of_or {b : Memory} {pos k : Nat} {acc : BitVec 35} (h : acc.toNat = assembled b pos k) (hk : k ≤ 4) :
    (acc ||| ((payload (b.read (pos + k))).setWidth 35 <<< (7 * k))).toNat = assembled b pos (k + 1) := by
  rw [or_shift_toNat acc _ (h ▸ assembled_lt b pos k) hk, h, assembled_succ]

/-- An accepted value fits DEC_VALUE: a fifth payload has three bits at most (30_encoding R82). -/
theorem assembled_succ_lt {b : Memory} {pos k : Nat} (hk : k ≤ 4)
    (hp : k = 4 → (payload (b.read (pos + k))).toNat ≤ 7) : assembled b pos (k + 1) < 2 ^ 31 := by
  obtain rfl | hk := hk.eq_or_lt
  · have h4 := assembled_lt b pos 4
    have hp := hp rfl
    rw [assembled_succ]
    omega
  · exact (assembled_lt b pos (k + 1)).trans_le (Nat.pow_le_pow_right (by norm_num) (by omega))

/-! ### The sequences dec accepts -/

/-- From index `k` on, the bytes at `pos` are those of an accepted sequence of `c` bytes for the value `v` (30_encoding R82). -/
structure AcceptedFrom (b : Memory) (pos avail k c : Nat) (v : BitVec 31) : Prop where
  lt_count : k < c
  count_le : c ≤ 5
  count_le_avail : c ≤ avail
  goes_on : ∀ j, k ≤ j → j + 1 < c → continues (b.read (pos + j)) = true
  ends : continues (b.read (pos + (c - 1))) = false
  fifth_le : c = 5 → (payload (b.read (pos + 4))).toNat ≤ 7
  value : v.toNat = assembled b pos c

section Accepted

variable {b : Memory} {pos avail k c : Nat} {v : BitVec 31}

/-- A byte that continues is never the last. -/
theorem acceptedFrom_iff_of_continues (h : continues (b.read (pos + k)) = true) :
    AcceptedFrom b pos avail k c v ↔ AcceptedFrom b pos avail (k + 1) c v := by
  constructor
  · intro a
    have hne : k + 1 ≠ c := by
      rintro rfl
      have hend := a.ends
      rw [Nat.add_sub_cancel, h] at hend
      cases hend
    exact { a with lt_count := lt_of_le_of_ne a.lt_count hne, goes_on := fun j hj => a.goes_on j (by omega) }
  · intro a
    refine { a with lt_count := by have := a.lt_count; omega, goes_on := fun j hj hc => ?_ }
    obtain rfl | hj := hj.eq_or_lt
    · exact h
    · exact a.goes_on j hj hc

/-- A byte that does not continue is the last. -/
theorem acceptedFrom_iff_of_not_continues (h : continues (b.read (pos + k)) = false) (hk : k ≤ 4) (hav : k < avail) :
    AcceptedFrom b pos avail k c v ↔
      c = k + 1 ∧ (k = 4 → (payload (b.read (pos + k))).toNat ≤ 7) ∧ v.toNat = assembled b pos (k + 1) := by
  constructor
  · intro a
    have hc : c = k + 1 := by
      by_contra hne
      have hlt := a.lt_count
      rw [a.goes_on k le_rfl (by omega)] at h
      cases h
    subst hc
    exact ⟨rfl, fun h4 => by subst h4; exact a.fifth_le rfl, a.value⟩
  · rintro ⟨rfl, hp, hv⟩
    exact
      { lt_count := Nat.lt_succ_self k
        count_le := Nat.succ_le_succ hk
        count_le_avail := hav
        goes_on := fun j hj hc => by omega
        ends := h
        fifth_le := fun h5 => by
          obtain rfl : k = 4 := Nat.succ.inj h5
          exact hp rfl
        value := hv }

/-- The rounds from `k` on, with the payloads before it in the accumulator, accept just these sequences. -/
theorem decLoop_eq_ok_iff {fuel : Nat} {acc : BitVec 35} (hf : k + fuel = 5) (ha : acc.toNat = assembled b pos k) :
    decLoop b pos avail fuel k acc = .ok v c ↔ AcceptedFrom b pos avail k c v := by
  induction fuel generalizing k acc with
  | zero =>
    refine iff_of_false nofun fun a => ?_
    have := a.lt_count
    have := a.count_le
    omega
  | succ fuel ih =>
    have hk : k ≤ 4 := by omega
    rw [decLoop_succ]
    by_cases hav : avail ≤ k
    · rw [if_pos hav]
      refine iff_of_false nofun fun a => ?_
      have := a.lt_count
      have := a.count_le_avail
      omega
    rw [if_neg hav]
    cases hc : continues (b.read (pos + k)) with
    | true =>
      rw [if_pos rfl, acceptedFrom_iff_of_continues hc]
      exact ih (by omega) (assembled_of_or ha hk)
    | false =>
      rw [if_neg Bool.false_ne_true, acceptedFrom_iff_of_not_continues hc hk (Nat.lt_of_not_le hav)]
      by_cases hbig : k = 4 ∧ 7 < (payload (b.read (pos + k))).toNat
      · rw [if_pos hbig]
        exact iff_of_false nofun fun ⟨_, hp, _⟩ => (hp hbig.1).not_gt hbig.2
      · have hp : k = 4 → (payload (b.read (pos + k))).toNat ≤ 7 := fun h4 => Nat.le_of_not_lt fun h => hbig ⟨h4, h⟩
        rw [if_neg hbig, DecodeOutcome.ok.injEq, ← BitVec.toNat_inj, BitVec.toNat_setWidth, assembled_of_or ha hk,
          Nat.mod_eq_of_lt (assembled_succ_lt hk hp)]
        exact ⟨fun ⟨hv, hc⟩ => ⟨hc.symm, hp, hv.symm⟩, fun ⟨hc, _, hv⟩ => ⟨hv.symm, hc.symm⟩⟩

theorem dec_eq_ok_iff : dec b pos avail = .ok v c ↔ AcceptedFrom b pos avail 0 c v := decLoop_eq_ok_iff rfl rfl

end Accepted

/-- Settles O38: the whole decode is the rounds from 0 on. -/
theorem acceptedSequences : Obligations.AcceptedSequences := by
  intro b pos avail c v
  rw [dec_eq_ok_iff]
  constructor
  · intro a
    exact ⟨a.lt_count, a.count_le, a.count_le_avail, fun j => a.goes_on j (Nat.zero_le j), a.ends, a.fifth_le, a.value⟩
  · rintro ⟨hpos, hle, hav, hon, hend, hfifth, hv⟩
    exact ⟨hpos, hle, hav, fun j _ => hon j, hend, hfifth, hv⟩

/-! ### The sequences enc writes -/

/-- The `n` bytes of the buffer from `pos` on. -/
def Memory.bytes (b : Memory) (pos n : Nat) : List Byte := (List.range n).map fun j => b.read (pos + j)

@[simp] theorem Memory.length_bytes (b : Memory) (pos n : Nat) : (b.bytes pos n).length = n := by simp [bytes]

theorem Memory.bytes_succ (b : Memory) (pos n : Nat) : b.bytes pos (n + 1) = b.read pos :: b.bytes (pos + 1) n := by
  simp [bytes, List.range_succ_eq_map, Function.comp_def, Nat.add_assoc, Nat.add_comm 1]

/-- The loop's next value and the group it writes, where the value begins with the byte's payload. -/
theorem shift_of_toNat_eq {r : BitVec 31} {p : BitVec 7} {m : Nat} (h : r.toNat = p.toNat + 128 * m) :
    r.extractLsb' 0 7 = p ∧ (r >>> 7).toNat = m := by
  have hp := p.isLt
  constructor
  · apply BitVec.eq_of_toNat_eq
    rw [BitVec.extractLsb'_toNat, Nat.shiftRight_zero, h]
    omega
  · rw [BitVec.toNat_ushiftRight, Nat.shiftRight_eq_div_pow, h]
    omega

/-- The encoder writes `n + 1` bytes with continuation bits as in R82 back from their value exactly where it needs them all: one
byte, or a last payload that is not 0. -/
theorem encLoop_eq_bytes_iff {b : Memory} {pos n fuel : Nat} {r : BitVec 31} (hn : n < fuel)
    (hon : ∀ j, j < n → continues (b.read (pos + j)) = true) (hend : continues (b.read (pos + n)) = false)
    (hr : r.toNat = assembled b pos (n + 1)) :
    encLoop fuel r = b.bytes pos (n + 1) ↔ n = 0 ∨ payload (b.read (pos + n)) ≠ 0#7 := by
  induction n generalizing pos fuel r with
  | zero =>
    obtain ⟨fuel, rfl⟩ := Nat.exists_eq_succ_of_ne_zero (Nat.ne_zero_of_lt hn)
    obtain ⟨hg, hrest⟩ := shift_of_toNat_eq (hr.trans (assembled_succ_eq_first b pos 0))
    have hrest : r >>> 7 = 0#31 := BitVec.eq_of_toNat_eq hrest
    have hbyte : wireByte 0#1 (payload (b.read pos)) = b.read pos := wireByte_payload_of_not_continues hend
    rw [encLoop_succ, if_pos hrest, hg, hbyte]
    exact iff_of_true rfl (.inl rfl)
  | succ n ih =>
    obtain ⟨fuel, rfl⟩ := Nat.exists_eq_succ_of_ne_zero (Nat.ne_zero_of_lt hn)
    obtain ⟨hg, hrest⟩ := shift_of_toNat_eq (hr.trans (assembled_succ_eq_first b pos (n + 1)))
    have hbyte : wireByte 1#1 (payload (b.read pos)) = b.read pos := wireByte_payload_of_continues (hon 0 n.succ_pos)
    have hnext (j : Nat) : pos + 1 + j = pos + (j + 1) := by omega
    rw [encLoop_succ, Memory.bytes_succ, hg, hbyte]
    by_cases h0 : r >>> 7 = 0#31
    · have hlast : payload (b.read (pos + (n + 1))) = 0#7 := by
        rw [← hnext]
        exact payload_eq_zero_of_assembled (hrest.symm.trans (congrArg BitVec.toNat h0))
      rw [if_pos h0]
      exact iff_of_false (fun h => by simpa using congrArg List.length h) (by simp [hlast])
    · have ih := ih (pos := pos + 1) (Nat.lt_of_succ_lt_succ hn) (fun j hj => hnext j ▸ hon (j + 1) (Nat.succ_lt_succ hj))
        (hnext n ▸ hend) hrest
      have hlast : n = 0 → payload (b.read (pos + (n + 1))) ≠ 0#7 := by
        rintro rfl hp
        refine h0 (BitVec.eq_of_toNat_eq (hrest.trans ?_))
        simp [assembled, hp]
      rw [if_neg h0, List.cons_inj_right, ih, hnext, or_iff_right_of_imp hlast, or_iff_right n.succ_ne_zero]

/-- Settles O39: the value of an accepted sequence, encoded again. -/
theorem onlyMinimalFormsReencode : Obligations.OnlyMinimalFormsReencode := by
  intro b pos avail c v h
  have a := dec_eq_ok_iff.1 h
  obtain ⟨n, rfl⟩ := Nat.exists_eq_succ_of_ne_zero a.lt_count.ne'
  have key := encLoop_eq_bytes_iff a.count_le (fun j hj => a.goes_on j j.zero_le (by omega)) a.ends a.value
  exact (or_congr_left (by simp)).trans key.symm

end Sys2Proof.Machine
end

section
/-! SUPPORT. Host programs (30_encoding R92-R95): the transactions of a finished run, and why the run of a poll or of a whole
program ends under a fair schedule (70_reset R199, 60_exceptions R175). -/

namespace Sys2Proof.Machine

/-! ### The transactions of a program -/

theorem opEvents_singleton_poll (n status : Nat) :
    opEvents [n] [.poll status] = List.replicate (n + 1) (.busRead status 4) := List.append_nil _

/-- Settles O56: the lines by definition, and the last poll's reads with nothing behind them. -/
theorem hostNotationExpands : Obligations.HostNotationExpands := by
  intro base n v pos lim
  have hpoll := opEvents_singleton_poll n (base + 0x04)
  exact ⟨⟨rfl, rfl, rfl⟩, congrArg (_ :: _ :: ·) hpoll, congrArg (_ :: _ :: _ :: ·) hpoll, congrArg (_ :: ·) hpoll⟩

section Transactions

variable {ops : List HostOp} {status : Nat} {d : Word} {trace : List (Event × Word)}

/-- A read that returned s[0] = 1, before the reads of a poll. -/
theorem Transacts.poll_again (hd : d.getLsbD 0 = true) (h : Transacts (.poll status :: ops) trace) :
    Transacts (.poll status :: ops) ((.busRead status 4, d) :: trace) := by
  obtain ⟨looped, last, rest, rfl, hlooped, hlast, hrest⟩ := h
  exact ⟨d :: looped, last, rest, rfl, List.forall_mem_cons.2 ⟨hd, hlooped⟩, hlast, hrest⟩

/-- A read that returned s[0] = 0 is a whole poll. -/
theorem Transacts.poll_over (hd : d.getLsbD 0 = false) (h : Transacts ops trace) :
    Transacts (.poll status :: ops) ((.busRead status 4, d) :: trace) :=
  ⟨[], d, trace, rfl, nofun, hd, h⟩

/-- The transactions carried out are the program's encoding, with the loop counts its polls had. -/
theorem Transacts.exists_opEvents (h : Transacts ops trace) :
    ∃ again : List Nat, trace.map (fun e => e.1) = opEvents again ops := by
  induction ops generalizing trace with
  | nil => exact ⟨[], congrArg (List.map _) h⟩
  | cons op ops ih =>
    cases op with
    | access ev =>
      obtain ⟨d, rest, rfl, hrest⟩ := h
      obtain ⟨again, e⟩ := ih hrest
      exact ⟨again, congrArg (ev :: ·) e⟩
    | poll status =>
      obtain ⟨looped, last, rest, rfl, -, -, hrest⟩ := h
      obtain ⟨again, e⟩ := ih hrest
      refine ⟨looped.length :: again, ?_⟩
      simp [opEvents, e, List.replicate_succ', Function.comp_def, List.map_const']

end Transactions

/-- What a host's turn leaves to transact, with what it transacted in front. -/
theorem hostTurn_transacts {p q : HostRun} {rest : List (Event × Word)} (h : hostTurn p = .next q)
    (ht : Transacts q.todo rest) : ∃ done, q.trace = p.trace ++ done ∧ Transacts p.todo (done ++ rest) := by
  obtain ⟨-, rfl⟩ | ⟨ev, t, -, -, htrace, ⟨ops, hp, hq⟩ | ⟨status, ops, rfl, hp, hq⟩⟩ := hostTurn_cases h
  · exact ⟨[], (List.append_nil _).symm, ht⟩
  · rw [hq] at ht
    exact ⟨_, htrace, hp ▸ ⟨_, _, rfl, ht⟩⟩
  · refine ⟨_, htrace, ?_⟩
    cases hd : t.rdata.getLsbD 0 with
    | true =>
      rw [hq, if_pos hd] at ht
      rw [hp] at ht ⊢
      exact ht.poll_again hd
    | false =>
      rw [hq, if_neg (ne_true_of_eq_false hd)] at ht
      rw [hp]
      exact ht.poll_over hd

/-- A run to the program's end has transacted what was left of it. -/
theorem hostRun_transacts {turns : List Turn} {p q : HostRun} (h : hostRun turns p = .next q) (hq : q.todo = []) :
    ∃ done, q.trace = p.trace ++ done ∧ Transacts p.todo done := by
  induction turns generalizing p with
  | nil =>
    cases h
    exact ⟨[], (List.append_nil _).symm, hq ▸ rfl⟩
  | cons turn turns ih =>
    obtain ⟨u, hu, h⟩ := hostRun_cons_eq_next h
    obtain ⟨rest, hrest, ht⟩ := ih h
    cases turn with
    | host =>
      obtain ⟨done, hdone, ht⟩ := hostTurn_transacts hu ht
      exact ⟨done ++ rest, by rw [hrest, hdone, List.append_assoc], ht⟩
    | other ev =>
      obtain ⟨t, -, rfl⟩ := otherTurn_eq_next hu
      exact ⟨rest, hrest, ht⟩

/-! ### What an event does to one instance -/

/-- In `s`, `ev` reaches instance `n` and carries out `f` there. -/
inductive ActsOn (s : State) (n : Nat) : Event → (State → Result) → Prop
  | engine : ActsOn s n (.engine n) engineTurn
  | reset : ActsOn s n (.reset n) resetInst
  | write {addr size : Nat} {w : Word} (off : Nat) (h : s.target addr size = some n) :
      ActsOn s n (.busWrite addr size w) (hostWrite off w)

/-- In `s`, `ev` is no write to the window of instance `n`. -/
def NoWriteTo (s : State) (n : Nat) (ev : Event) : Prop :=
  ∀ addr size w, ev = .busWrite addr size w → s.target addr size ≠ some n

theorem windowAccess_eq_next {addr size : Nat} {f : Nat → State → Result} {s t : State}
    (h : windowAccess addr size f s = .next t) : f (addr - s.inst.base) s = .next t := by
  unfold windowAccess at h
  split at h
  · exact h
  · cases h

/-- An operation that writes instance 0 alone, reached on instance `m`, changes instance `m` alone. -/
theorem atInst_instAt {m : Nat} {f : State → Result} {s t : State} (n : Nat)
    (hf : ∀ u v, f u = .next v → v = u.setInst v.inst) (h : atInst m f s = .next t) :
    t.instAt n = s.instAt n ∨
      (n = m ∧ n < s.numInst ∧ ∃ j, t.instAt n = some j ∧ f (s.focus n) = .next ((s.focus n).setInst j)) := by
  unfold atInst at h
  split at h
  · rename_i hm
    obtain ⟨v, hv, rfl⟩ := onNext_eq_next h
    have e := hf _ _ hv
    by_cases hnm : n = m
    · subst hnm
      refine .inr ⟨rfl, hm, v.inst, ?_, e ▸ hv⟩
      rw [e, State.instAt_focus_setInst _ hm, if_pos rfl, State.setInst_inst]
    · left
      rw [e, State.instAt_focus_setInst _ hm, if_neg hnm]
  · cases h
    exact .inl rfl

theorem hostWrite_eq_next {off : Nat} {w : Word} {s t : State} (h : hostWrite off w s = .next t) :
    t = s.setInst t.inst := by
  obtain ⟨j, e⟩ := hostWrite_setInst off w s
  rw [e] at h
  cases h
  rfl

theorem engineTurn_eq_next {s t : State} (h : engineTurn s = .next t) : t = s.setInst t.inst := by
  obtain ⟨j, e⟩ := engineTurn_setInst s
  rw [e] at h
  cases h
  rfl

theorem resetInst_eq_next {s t : State} (h : resetInst s = .next t) : t = s.setInst t.inst := by
  cases h
  rfl

/-- All an event can do to instance `n`: nothing, or what it carries out there. -/
theorem perform_instAt {ev : Event} {s t : State} (h : perform ev s = .next t) (n : Nat) :
    t.instAt n = s.instAt n ∨ ∃ f j, ActsOn s n ev f ∧ n < s.numInst ∧ t.instAt n = some j ∧
      f (s.focus n) = .next ((s.focus n).setInst j) := by
  cases ev with
  | busWrite addr size w =>
    cases ht : s.target addr size with
    | none =>
      have e : perform (.busWrite addr size w) s = .next s := by simp [perform, busAccess, ht]
      rw [e] at h
      cases h
      exact .inl rfl
    | some m =>
      have e : perform (.busWrite addr size w) s = atInst m (windowAccess addr size fun off => hostWrite off w) s := by
        simp [perform, busAccess, ht]
      rw [e] at h
      obtain hn | ⟨rfl, hn, j, hj, hw⟩ := atInst_instAt n (fun u v hv => hostWrite_eq_next (windowAccess_eq_next hv)) h
      · exact .inl hn
      · exact .inr ⟨_, j, .write _ ht, hn, hj, windowAccess_eq_next hw⟩
  | engine m =>
    obtain hn | ⟨rfl, hn, j, hj⟩ := atInst_instAt n (fun u v => engineTurn_eq_next) h
    · exact .inl hn
    · exact .inr ⟨_, j, .engine, hn, hj⟩
  | reset m =>
    obtain hn | ⟨rfl, hn, j, hj⟩ := atInst_instAt n (fun u v => resetInst_eq_next) h
    · exact .inl hn
    · exact .inr ⟨_, j, .reset, hn, hj⟩
  | busRead addr size | bufWrite a b | bufRead a =>
    obtain ⟨m, j, -, hev, -⟩ | ⟨a, b, -, rfl⟩ | ⟨v, rfl⟩ := perform_eq_next h
    · cases hev
    · exact .inl rfl
    · exact .inl rfl

/-- A host read changes what the host read alone. -/
theorem perform_busRead_eq_next {addr size : Nat} {s t : State} (h : perform (.busRead addr size) s = .next t) :
    t = { s with rdata := t.rdata } := by
  obtain ⟨m, j, -, hev, -⟩ | ⟨a, b, hev, -⟩ | ⟨v, rfl⟩ := perform_eq_next h
  · cases hev
  · cases hev
  · rfl

/-! ### No event moves a window -/

theorem Inst.encoderStep_control (i : Inst) :
    i.encoderStep.base = i.base ∧ i.encoderStep.op = .idle ∧ i.encoderStep.status.busy = false := by
  cases hv : i.encIn.getLsbD 31 with
  | true => rw [Inst.encoderStep_outOfRange hv]; exact ⟨rfl, rfl, rfl⟩
  | false => rw [Inst.encoderStep_ok hv]; exact ⟨rfl, rfl, rfl⟩

theorem exec_inst {ins : Instr} {s t : State} (h : exec ins s = .next t) : t.inst = s.inst.effect s.plat ins := by
  rw [(exec_eq_next h).1, State.setInst_inst]

theorem Inst.writeReg_base (pl : Platform) (r : Reg) (w : Word) (i : Inst) : (i.writeReg pl r w).base = i.base := by
  cases hb : i.status.busy with
  | true => rw [Inst.writeReg_busy pl r w hb, Inst.ignoredWrite_base]
  | false => rw [Inst.writeReg_idle pl r w hb]; cases r <;> rfl

theorem ActsOn.base {s u v : State} {n : Nat} {ev : Event} {f : State → Result} (h : ActsOn s n ev f)
    (hf : f u = .next v) : v.inst.base = u.inst.base := by
  cases h with
  | engine =>
    obtain e | ⟨-, -, e⟩ | ⟨-, -, ins, j, -, e, -⟩ := engineTurn_cases u
    · cases e.symm.trans hf
      rfl
    · cases e.symm.trans hf
      exact u.inst.encoderStep_control.1
    · rw [exec_inst (e.symm.trans hf), Inst.effect_base]
  | reset =>
    cases hf
    rfl
  | write off ht =>
    unfold hostWrite at hf
    split at hf
    · rw [exec_inst hf, Inst.effect_base]
    · cases hf
      exact Inst.writeReg_base _ _ _ _

/-- BASE is a parameter (00_scope R7). -/
theorem perform_base {ev : Event} {s t : State} (h : perform ev s = .next t) (n : Nat) :
    (t.instAt n).map Inst.base = (s.instAt n).map Inst.base := by
  obtain e | ⟨f, j, ha, hn, hj, hf⟩ := perform_instAt h n
  · rw [e]
  · obtain ⟨i, hi⟩ := State.instAt_of_lt hn
    rw [hi, hj, Option.map_some, Option.map_some, ← State.focus_inst hi]
    exact congrArg some (ha.base hf)

/-! ### The engine's progress -/

theorem State.nextByte_ne_ctrl (s : State) (w : Word) : s.nextByte ≠ some (.ctrl w) := by
  unfold State.nextByte
  split
  · nofun
  · split <;> nofun

/-- The decoder fetches no command. -/
theorem fetch_isByteClass {s : State} {ins : Instr} (h : s.fetch = some ins) : isByteClass ins := by
  obtain ⟨e, he, rfl⟩ := Option.map_eq_some_iff.1 h
  intro w hw
  rw [(decodeInstr_spec s.inst.k e).2.2] at hw
  exact s.nextByte_ne_ctrl w (hw ▸ he)

/-- A fetched class reads on at an index below 4, or completes the DECODE. -/
theorem effect_of_fetch {s : State} {ins : Instr} (h : s.fetch = some ins) :
    (s.inst.k.val < 4 ∧ ∃ p, s.inst.effect s.plat ins = s.inst.continueWith p) ∨
    ((s.inst.effect s.plat ins).op = .idle ∧ (s.inst.effect s.plat ins).status.busy = false) := by
  have hb := fetch_isByteClass h
  cases ins with
  | nop | encode | decode | illegalCmd3 | illegalZ w => exact absurd rfl (hb _)
  | cont p => exact .inl ⟨of_decide_eq_true (fetch_fitsAt h), p, rfl⟩
  | term p | cont5 p | term5 p | ovr5 p | noByte => exact .inr ⟨rfl, rfl⟩

/-- An engine has a step for a waiting ENCODE, and for a DECODE that is not stuck (40_control R109). -/
theorem State.engineReady_iff (s : State) :
    s.engineReady = true ↔
      s.inst.status.busy = true ∧ (s.inst.op = .enc ∨ s.inst.op = .dec ∧ ∃ ins, s.fetch = some ins) := by
  unfold State.engineReady
  cases s.inst.op <;> simp [Option.isSome_iff_exists]

/-- A step of a running engine reads on or completes its command. -/
theorem engineTurn_of_ready {s t : State} (hr : s.engineReady = true) (h : engineTurn s = .next t) :
    (s.inst.op = .dec ∧ s.inst.k.val < 4 ∧ ∃ p, t.inst = s.inst.continueWith p) ∨
    (t.inst.op = .idle ∧ t.inst.status.busy = false) := by
  obtain ⟨hb, hop | ⟨hop, ins, hf⟩⟩ := s.engineReady_iff.1 hr
  · cases (engineTurn_enc hb hop).symm.trans h
    exact .inr s.inst.encoderStep_control.2
  · rw [exec_inst ((engineTurn_dec hb hop hf).symm.trans h)]
    exact (effect_of_fetch hf).imp_left fun hk => ⟨hop, hk⟩

/-- An engine without a step stays where it is. -/
theorem engineTurn_of_not_ready {s : State} (hr : s.engineReady = false) : engineTurn s = .next s := by
  have hr : ¬ s.engineReady = true := ne_true_of_eq_false hr
  rw [State.engineReady_iff] at hr
  obtain e | ⟨hb, hop, -⟩ | ⟨hb, hop, ins, -, hf, -⟩ := engineTurn_cases s
  · exact e
  · exact absurd ⟨hb, .inl hop⟩ hr
  · exact absurd ⟨hb, .inr ⟨hop, ins, hf⟩⟩ hr

/-- A busy engine without a step is stuck (60_exceptions R177). -/
theorem State.stuck_of_not_ready {s : State} (hi : InstInv s.plat s.inst) (hb : s.inst.status.busy = true)
    (hr : s.engineReady = false) : s.Stuck := by
  have hr : ¬ s.engineReady = true := ne_true_of_eq_false hr
  rw [State.engineReady_iff] at hr
  cases hop : s.inst.op with
  | idle => exact absurd hop (hi.busy_iff.1 hb)
  | enc => exact absurd ⟨hb, .inl hop⟩ hr
  | dec =>
    have hf (ins : Instr) : s.fetch ≠ some ins := fun hf => hr ⟨hb, .inr ⟨hop, ins, hf⟩⟩
    have hk : s.inst.k.val < s.inst.avail := Nat.lt_of_not_le fun hk => hf _ (fetch_noByte hk)
    exact ⟨hb, hop, hk, eq_false_of_ne_true fun ha => hf _ (fetch_byte hk ha)⟩

theorem State.Served.not_stuck {s : State} (h : s.Served) (hi : InstInv s.plat s.inst) : ¬ s.Stuck := by
  rintro ⟨-, -, hk, ha⟩
  rw [State.byteAddr_eq hi.limit_lt hk, h _ (Nat.le_add_right _ _) (s.inst.lt_avail_iff.1 hk)] at ha
  cases ha

/-- The most engine steps that a running command has left. -/
def Inst.stepsLeft (i : Inst) : Nat :=
  if i.status.busy then
    match i.op with
    | .idle => 0
    | .enc => 1
    | .dec => 5 - i.k.val
  else 0

section StepsLeft

variable {i : Inst}

theorem Inst.stepsLeft_of_not_busy (h : i.status.busy = false) : i.stepsLeft = 0 := by
  rw [Inst.stepsLeft, h]
  rfl

theorem Inst.stepsLeft_of_dec (h : i.status.busy = true) (hop : i.op = .dec) : i.stepsLeft = 5 - i.k.val := by
  rw [Inst.stepsLeft, h, hop]
  rfl

theorem Inst.stepsLeft_le (i : Inst) : i.stepsLeft ≤ 5 := by
  unfold Inst.stepsLeft
  split
  · split <;> omega
  · exact Nat.zero_le 5

theorem InstInv.stepsLeft_pos {pl : Platform} (h : InstInv pl i) (hb : i.status.busy = true) : 0 < i.stepsLeft := by
  have hop := h.busy_iff.1 hb
  have hk := i.k.isLt
  rw [Inst.stepsLeft, if_pos hb]
  split
  · exact absurd ‹_› hop
  · exact Nat.one_pos
  · omega

theorem Inst.stepsLeft_continueWith (p : BitVec 7) (hb : i.status.busy = true) (hop : i.op = .dec) (hk : i.k.val < 4) :
    (i.continueWith p).stepsLeft < i.stepsLeft := by
  rw [Inst.stepsLeft_of_dec hb hop, Inst.stepsLeft_of_dec (i := i.continueWith p) hb hop, Inst.continueWith_k_val p hk]
  omega

end StepsLeft

/-- A running engine's step is one of those it has left. -/
theorem engineTurn_stepsLeft_lt {s t : State} (hi : InstInv s.plat s.inst) (hr : s.engineReady = true)
    (h : engineTurn s = .next t) : t.inst.stepsLeft < s.inst.stepsLeft := by
  have hb := (s.engineReady_iff.1 hr).1
  obtain ⟨hop, hk, p, e⟩ | ⟨-, e⟩ := engineTurn_of_ready hr h
  · rw [e]
    exact Inst.stepsLeft_continueWith p hb hop hk
  · rw [Inst.stepsLeft_of_not_busy e]
    exact hi.stepsLeft_pos hb

/-- Nothing but a write to the window gives an instance more engine steps. -/
theorem ActsOn.stepsLeft_le {s u v : State} {n : Nat} {ev : Event} {f : State → Result} (h : ActsOn s n ev f)
    (hi : InstInv u.plat u.inst) (hw : NoWriteTo s n ev) (hf : f u = .next v) : v.inst.stepsLeft ≤ u.inst.stepsLeft := by
  cases h with
  | engine =>
    cases hr : u.engineReady with
    | true => exact (engineTurn_stepsLeft_lt hi hr hf).le
    | false =>
      cases (engineTurn_of_not_ready hr).symm.trans hf
      exact le_rfl
  | reset =>
    cases hf
    exact Nat.zero_le _
  | write off ht => exact absurd ht (hw _ _ _ rfl)

/-! ### Runs of a schedule -/

theorem perform_answers (ev : Event) (s : State) : (∃ t, perform ev s = .next t) ∨ ∃ e, perform ev s = .fault e := by
  obtain ⟨n, j, -, -, h⟩ | ⟨v, -, h⟩ | ⟨a, b, -, -, -, h⟩ | h | ⟨e, h, -⟩ := perform_cases ev s
  · exact .inl ⟨_, h⟩
  · exact .inl ⟨_, h⟩
  · exact .inl ⟨_, h⟩
  · exact .inl ⟨_, h⟩
  · exact .inr ⟨e, h⟩

theorem HostRun.transact_answers (ev : Event) (left : Word → List HostOp) (p : HostRun) :
    (∃ q, p.transact ev left = .next q) ∨ ∃ e, p.transact ev left = .fault e := by
  unfold HostRun.transact
  obtain ⟨t, h⟩ | ⟨e, h⟩ := perform_answers ev p.machine
  · exact .inl ⟨_, by rw [h]⟩
  · exact .inr ⟨e, by rw [h]⟩

/-- A turn has a next state or faults. -/
theorem takeTurn_answers (turn : Turn) (p : HostRun) :
    (∃ q, takeTurn turn p = .next q) ∨ ∃ e, takeTurn turn p = .fault e := by
  cases turn with
  | host =>
    simp only [takeTurn, hostTurn]
    split
    · exact .inl ⟨_, rfl⟩
    · exact HostRun.transact_answers _ _ p
    · exact HostRun.transact_answers _ _ p
  | other ev =>
    simp only [takeTurn, otherTurn]
    obtain ⟨t, h⟩ | ⟨e, h⟩ := perform_answers ev p.machine
    · exact .inl ⟨_, by rw [h]⟩
    · exact .inr ⟨e, by rw [h]⟩

theorem hostRun_append_eq_next {turns more : List Turn} {r q : HostRun} (h : hostRun (turns ++ more) r = .next q) :
    ∃ p, hostRun turns r = .next p ∧ hostRun more p = .next q := by
  induction turns generalizing r with
  | nil => exact ⟨r, rfl, h⟩
  | cons turn turns ih =>
    obtain ⟨u, hu, h⟩ := hostRun_cons_eq_next h
    obtain ⟨p, hp, hq⟩ := ih h
    exact ⟨p, by rw [hostRun, hu]; exact hp, hq⟩

section RunFor

variable {sched : Schedule} {r q : HostRun} {m : Nat}

theorem runFor_succ_eq_next (h : runFor sched (m + 1) r = .next q) :
    ∃ p, runFor sched m r = .next p ∧ takeTurn (sched m) p = .next q := by
  unfold runFor at h
  rw [List.range_succ, List.map_append] at h
  obtain ⟨p, hp, -⟩ := hostRun_append_eq_next h
  have hp : runFor sched m r = .next p := hp
  exact ⟨p, hp, (runFor_succ hp).symm.trans (by unfold runFor; rwa [List.range_succ, List.map_append])⟩

/-- What holds at first and is kept by every turn of the run holds at every moment of it. -/
theorem runFor_induction {P : HostRun → Prop} (h0 : P r)
    (hturn : ∀ m p q, runFor sched m r = .next p → P p → takeTurn (sched m) p = .next q → P q)
    (h : runFor sched m r = .next q) : P q := by
  induction m generalizing q with
  | zero =>
    cases h
    exact h0
  | succ m ih =>
    obtain ⟨p, hp, hq⟩ := runFor_succ_eq_next h
    exact hturn m p q hp (ih hp) hq

/-- What every event keeps of the machine holds at every moment of the run. -/
theorem runFor_machine {P : State → Prop} (h0 : P r.machine) (hev : ∀ ev s t, P s → perform ev s = .next t → P t)
    (h : runFor sched m r = .next q) : P q.machine := by
  refine runFor_induction (P := fun p => P p.machine) h0 (fun _ p u _ hp hu => ?_) h
  obtain e | ⟨ev, hev'⟩ := takeTurn_machine hu
  · rwa [e]
  · exact hev ev _ _ hp hev'

theorem runFor_inv (h0 : Inv r.machine) (h : runFor sched m r = .next q) : Inv q.machine :=
  runFor_machine h0 (fun ev s t hs ht => keepsInv_perform ev s t hs ht) h

theorem runFor_base (h : runFor sched m r = .next q) (n : Nat) :
    (q.machine.instAt n).map Inst.base = (r.machine.instAt n).map Inst.base :=
  runFor_machine (P := fun s => (s.instAt n).map Inst.base = (r.machine.instAt n).map Inst.base) rfl
    (fun _ _ _ hs ht => (perform_base ht n).trans hs) h

/-- An instance stays, with its window where it was. -/
theorem runFor_instAt {n : Nat} {i : Inst} (hi : r.machine.instAt n = some i) (h : runFor sched m r = .next q) :
    ∃ j, q.machine.instAt n = some j ∧ j.base = i.base := by
  have hb := runFor_base h n
  rw [hi] at hb
  exact Option.map_eq_some_iff.1 hb

theorem runFor_target (h : runFor sched m r = .next q) (addr size : Nat) :
    q.machine.target addr size = r.machine.target addr size :=
  State.target_congr (runFor_base h) addr size

/-- The turns of the other agents leave the window of a sole host's instance alone (92 D33). -/
theorem runFor_noWriteTo {n : Nat} {ev : Event} (hsole : SoleHost n sched r.machine) (h : runFor sched m r = .next q)
    (he : sched m = .other ev) : NoWriteTo q.machine n ev := by
  rintro addr size w rfl
  rw [runFor_target h]
  exact hsole m addr size w he

end RunFor

/-! ### The host's progress -/

/-- What a run has left, in turns that count: six for each operation, which may start a command of up to five engine steps, and
the engine steps left. -/
def HostRun.work (n : Nat) (r : HostRun) : Nat := 6 * r.todo.length + (r.machine.focus n).inst.stepsLeft

section Work

variable {p q : HostRun} {n : Nat}

theorem HostRun.work_lt_of_length (h : q.todo.length < p.todo.length) : q.work n < p.work n := by
  have := (q.machine.focus n).inst.stepsLeft_le
  unfold HostRun.work
  omega

theorem HostRun.work_lt_of_stepsLeft (h : q.todo = p.todo)
    (hs : (q.machine.focus n).inst.stepsLeft < (p.machine.focus n).inst.stepsLeft) : q.work n < p.work n := by
  unfold HostRun.work
  rw [h]
  omega

/-- A host's turn takes an operation off, or leaves the host where it is and the machine but for what the host read. -/
theorem hostTurn_progress (h : hostTurn p = .next q) :
    q.todo.length < p.todo.length ∨ (q.todo = p.todo ∧ q.machine = { p.machine with rdata := q.machine.rdata }) := by
  obtain ⟨-, rfl⟩ | ⟨ev, t, ht, rfl, -, ⟨rest, hp, hq⟩ | ⟨status, rest, rfl, hp, hq⟩⟩ := hostTurn_cases h
  · exact .inr ⟨rfl, rfl⟩
  · left
    rw [hp, hq]
    exact Nat.lt_succ_self _
  · split at hq
    · exact .inr ⟨hq, perform_busRead_eq_next ht⟩
    · left
      rw [hp, hq]
      exact Nat.lt_succ_self _

/-- From `p` to `q` the host has gone on by nothing, and the engine of `n` by no step. -/
def SameProgress (n : Nat) (p q : HostRun) : Prop :=
  q.todo = p.todo ∧ (q.machine.focus n).inst.stepsLeft = (p.machine.focus n).inst.stepsLeft

theorem SameProgress.work_eq (h : SameProgress n p q) : q.work n = p.work n := by
  obtain ⟨htodo, hsteps⟩ := h
  rw [HostRun.work, HostRun.work, htodo, hsteps]

/-- While no other agent writes the window of `n`, a turn takes work off, or leaves the host and the engine of `n` as far. -/
theorem takeTurn_progress {turn : Turn} (hinv : Inv p.machine) (hn : n < p.machine.numInst)
    (hsole : ∀ ev, turn = .other ev → NoWriteTo p.machine n ev)
    (h : takeTurn turn p = .next q) :
    q.work n < p.work n ∨ SameProgress n p q := by
  cases turn with
  | host =>
    obtain hlt | ⟨htodo, hm⟩ := hostTurn_progress h
    · exact .inl (HostRun.work_lt_of_length hlt)
    · exact .inr ⟨htodo, by rw [hm, State.focus_withRdata]⟩
  | other ev =>
    obtain ⟨t, ht, rfl⟩ := otherTurn_eq_next h
    obtain ⟨i, hi⟩ := State.instAt_of_lt hn
    obtain e | ⟨f, j, ha, -, hj, hf⟩ := perform_instAt ht n
    · exact .inr ⟨rfl, by rw [State.focus_inst (e.trans hi), State.focus_inst hi]⟩
    · have hle := ha.stepsLeft_le (hinv.focus n).inst0 (hsole ev rfl) hf
      rw [State.setInst_inst, ← State.focus_inst hj] at hle
      exact hle.lt_or_eq.imp (HostRun.work_lt_of_stepsLeft rfl) fun e => ⟨rfl, e⟩

/-- A turn of the engine of `n` takes work off wherever it has a step. -/
theorem takeTurn_engine_work_lt (hinv : Inv p.machine) (hn : n < p.machine.numInst)
    (hr : (p.machine.focus n).engineReady = true) (h : takeTurn (.other (.engine n)) p = .next q) :
    q.work n < p.work n := by
  obtain ⟨t, ht, rfl⟩ := otherTurn_eq_next h
  obtain ⟨j, hj⟩ := engineTurn_setInst (p.machine.focus n)
  cases (atInst_setInst hn hj).symm.trans ht
  refine HostRun.work_lt_of_stepsLeft rfl ?_
  rw [State.focus_focus]
  exact engineTurn_stepsLeft_lt (hinv.focus n).inst0 hr hj

/-- Where every turn takes work off or leaves the progress as it is, there is a moment after which none takes any off: work is
a number, and somewhere least. -/
theorem exists_work_least {q : Nat → HostRun}
    (h : ∀ k, (q (k + 1)).work n < (q k).work n ∨ SameProgress n (q k) (q (k + 1))) :
    ∃ m, ∀ k, m ≤ k → SameProgress n (q m) (q k) ∧ ¬ (q (k + 1)).work n < (q k).work n := by
  obtain ⟨m, hmin⟩ : ∃ m, ∀ k, ¬ (q k).work n < (q m).work n :=
    ⟨Function.argmin fun k => (q k).work n, fun k => Function.not_lt_argmin (fun k => (q k).work n) k⟩
  have hdone {k : Nat} (hs : SameProgress n (q m) (q k)) : ¬ (q (k + 1)).work n < (q k).work n := by
    rw [hs.work_eq]
    exact hmin (k + 1)
  refine ⟨m, fun k hk => ?_⟩
  induction k, hk using Nat.le_induction with
  | base => exact ⟨⟨rfl, rfl⟩, hmin (m + 1)⟩
  | succ k _ ih =>
    obtain ⟨⟨htodo, hsteps⟩, hno⟩ := ih
    obtain ⟨htodo', hsteps'⟩ := (h k).resolve_left hno
    have hs : SameProgress n (q m) (q (k + 1)) := ⟨htodo'.trans htodo, hsteps'.trans hsteps⟩
    exact ⟨hs, hdone hs⟩

end Work

/-- A run without faults under a fair schedule comes to a moment at which the engine of `n` is stuck, or is idle with a host's
turn that leaves the host where it is. -/
theorem fairRun_settles {n : Nat} {sched : Schedule} {r : HostRun} (hinv : Inv r.machine) (hn : n < r.machine.numInst)
    (hfair : FairSchedule n sched r) (hrun : ∀ m, ∃ q, runFor sched m r = .next q) :
    ∃ m q, runFor sched m r = .next q ∧
      ((q.machine.focus n).Stuck ∨
        ((q.machine.focus n).inst.status.busy = false ∧ ∃ p, hostTurn q = .next p ∧ p.todo = q.todo)) := by
  obtain ⟨hweak, hgoes, hsole⟩ := hfair
  obtain ⟨i, hi⟩ := State.instAt_of_lt hn
  choose q hq using hrun
  have hturn (k : Nat) : takeTurn (sched k) (q k) = .next (q (k + 1)) := (runFor_succ (hq k)).symm.trans (hq (k + 1))
  have hinv (k : Nat) : Inv (q k).machine := runFor_inv hinv (hq k)
  have hn (k : Nat) : n < (q k).machine.numInst := by
    obtain ⟨j, hj, -⟩ := runFor_instAt hi (hq k)
    exact State.lt_numInst_of_instAt hj
  obtain ⟨m, hm⟩ := exists_work_least fun k =>
    takeTurn_progress (hinv k) (hn k) (fun ev => runFor_noWriteTo hsole (hq k)) (hturn k)
  obtain ⟨k, hk, he⟩ := hweak m
  obtain ⟨⟨-, hsteps⟩, hno⟩ := hm k hk
  have hready : ((q k).machine.focus n).engineReady = false := by
    obtain he | he := he
    · exact eq_false_of_ne_true fun hr => hno (takeTurn_engine_work_lt (hinv k) (hn k) hr (he ▸ hturn k))
    · exact he _ (hq k)
  cases hb : ((q k).machine.focus n).inst.status.busy with
  | true => exact ⟨k, q k, hq k, .inl (State.stuck_of_not_ready ((hinv k).focus n).inst0 hb hready)⟩
  | false =>
    obtain ⟨l, hl, hhost⟩ := hgoes m
    obtain ⟨⟨htodo, hsteps'⟩, -⟩ := hm l hl
    obtain ⟨⟨htodo', -⟩, -⟩ := hm (l + 1) (by omega)
    have hturn := hturn l
    rw [hhost] at hturn
    refine ⟨l, q l, hq l, .inr ⟨eq_false_of_ne_true fun hbusy => ?_, q (l + 1), hturn, htodo'.trans htodo.symm⟩⟩
    have hpos := ((hinv l).focus n).inst0.stepsLeft_pos hbusy
    rw [hsteps', ← hsteps, Inst.stepsLeft_of_not_busy hb] at hpos
    exact absurd hpos (lt_irrefl 0)

/-! ### A poll -/

/-- A STATUS read returns the word of STATUS (40_control R108). -/
theorem perform_statusRead {s : State} {n : Nat} {i : Inst} (hi : s.instAt n = some i)
    (ht : s.target (i.base + 0x04) 4 = some n) :
    perform (.busRead (i.base + 0x04) 4) s = .next { s with rdata := i.status.word } := by
  have hfocus := State.focus_inst hi
  have hal : i.aligned (i.base + 0x04) 4 = true := Inst.aligned_own rfl
  obtain ⟨hnone, -⟩ | ⟨m, hm, -, ⟨hno, -⟩ | ⟨-, e⟩⟩ := busAccess_cases (i.base + 0x04) 4 hostRead s
  · cases hnone.symm.trans ht
  · cases hm.symm.trans ht
    rw [hfocus, hal] at hno
    cases hno
  · cases hm.symm.trans ht
    rw [hfocus] at e
    refine e.trans ((onNext_focus_hostRead n _ s).trans ?_)
    rw [hfocus, Nat.add_sub_cancel_left]
    rfl

/-- A turn of a host that polls instance `n`. -/
theorem hostTurn_poll {r : HostRun} {rest : List HostOp} {n : Nat} {i : Inst} (hi : r.machine.instAt n = some i)
    (ht : r.machine.target (i.base + 0x04) 4 = some n) (htodo : r.todo = .poll (i.base + 0x04) :: rest) :
    hostTurn r = .next
      { todo := if i.status.busy = true then r.todo else rest
        trace := r.trace ++ [(.busRead (i.base + 0x04) 4, i.status.word)]
        machine := { r.machine with rdata := i.status.word } } := by
  simp only [hostTurn, htodo, HostRun.transact, perform_statusRead hi ht, pollAgain, i.status.word_fields.1]

/-- A poll of an idle instance is over at the host's next turn. -/
theorem hostTurn_poll_todo {p q : HostRun} {rest : List HostOp} {n base : Nat}
    (hi : ∃ i, p.machine.instAt n = some i ∧ i.base = base) (ht : p.machine.target (base + 0x04) 4 = some n)
    (htodo : p.todo = .poll (base + 0x04) :: rest) (hb : (p.machine.focus n).inst.status.busy = false)
    (h : hostTurn p = .next q) : q.todo = rest := by
  obtain ⟨i, hi, rfl⟩ := hi
  rw [State.focus_inst hi] at hb
  cases (hostTurn_poll hi ht htodo).symm.trans h
  exact if_neg (ne_true_of_eq_false hb)

/-- Instance `n` runs no DECODE, or one of a buffer that is served. -/
def State.ServedAt (n : Nat) (s : State) : Prop := (s.focus n).inst.op = .dec → (s.focus n).Served

theorem State.Served.congr {s t : State} (h : s.Served) (hplat : t.plat = s.plat) (hpos : t.inst.decPos = s.inst.decPos)
    (hlim : t.inst.decLimit = s.inst.decLimit) : t.Served := by
  intro a
  rw [hplat, hpos, hlim]
  exact h a

/-- What still decodes after an event that is no write to its window decodes the same buffer as before. -/
theorem ActsOn.decoding {s u v : State} {n : Nat} {ev : Event} {f : State → Result} (h : ActsOn s n ev f)
    (hw : NoWriteTo s n ev) (hf : f u = .next v)
    (hop : v.inst.op = .dec) :
    u.inst.op = .dec ∧ v.inst.decPos = u.inst.decPos ∧ v.inst.decLimit = u.inst.decLimit := by
  cases h with
  | engine =>
    cases hr : u.engineReady with
    | true =>
      obtain ⟨hu, -, p, e⟩ | ⟨hidle, -⟩ := engineTurn_of_ready hr hf
      · rw [e]
        exact ⟨hu, rfl, rfl⟩
      · cases hop.symm.trans hidle
    | false =>
      cases (engineTurn_of_not_ready hr).symm.trans hf
      exact ⟨hop, rfl, rfl⟩
  | reset =>
    cases hf
    cases hop
  | write off ht => exact absurd ht (hw _ _ _ rfl)

/-- While no other agent writes the window of `n`, a turn of another agent, or of a host that stays where it is, keeps the
buffer served. -/
theorem takeTurn_servedAt {p q : HostRun} {turn : Turn} {n : Nat} (hs : p.machine.ServedAt n)
    (hn : n < p.machine.numInst)
    (hsole : ∀ ev, turn = .other ev → NoWriteTo p.machine n ev)
    (htodo : q.todo = p.todo) (h : takeTurn turn p = .next q) : q.machine.ServedAt n := by
  intro hop
  cases turn with
  | host =>
    obtain hlt | ⟨-, hm⟩ := hostTurn_progress h
    · exact absurd hlt (by simp [htodo])
    · rw [hm, State.focus_withRdata] at hop ⊢
      exact (hs hop).congr rfl rfl rfl
  | other ev =>
    obtain ⟨t, ht, rfl⟩ := otherTurn_eq_next h
    have hplat : (t.focus n).plat = (p.machine.focus n).plat := by simpa using perform_plat ht
    obtain ⟨i, hi⟩ := State.instAt_of_lt hn
    obtain e | ⟨f, j, ha, -, hj, hf⟩ := perform_instAt ht n
    · have e : (t.focus n).inst = (p.machine.focus n).inst := by
        rw [State.focus_inst (e.trans hi), State.focus_inst hi]
      exact (hs (e ▸ hop)).congr hplat (by rw [e]) (by rw [e])
    · have e := State.focus_inst hj
      obtain ⟨hu, hpos, hlim⟩ := ha.decoding (hsole ev rfl) hf (e ▸ hop)
      exact (hs hu).congr hplat (by rw [e]; exact hpos) (by rw [e]; exact hlim)

/-- The turn that takes a host on from a poll is its read of s[0] = 0. -/
theorem takeTurn_poll_over {turn : Turn} {p q : HostRun} {status : Nat} {rest : List HostOp}
    (htodo : p.todo = .poll status :: rest) (hne : q.todo ≠ p.todo) (h : takeTurn turn p = .next q) :
    q.todo = rest ∧ ∃ s, q.trace = p.trace ++ [(.busRead status 4, s)] ∧ s.getLsbD 0 = false := by
  cases turn with
  | other ev =>
    obtain ⟨t, -, rfl⟩ := otherTurn_eq_next h
    exact absurd rfl hne
  | host =>
    obtain ⟨-, rfl⟩ | ⟨ev, t, -, -, htrace, ⟨ops, hp, -⟩ | ⟨st, ops, rfl, hp, hq⟩⟩ := hostTurn_cases h
    · exact absurd rfl hne
    · cases htodo.symm.trans hp
    · cases htodo.symm.trans hp
      cases hd : t.rdata.getLsbD 0 with
      | true => exact absurd (hq.trans (if_pos hd)) hne
      | false => exact ⟨hq.trans (if_neg (ne_true_of_eq_false hd)), _, htrace, hd⟩

/-- Settles O59: a poll that never ended would settle with the engine stuck, which a served buffer excludes, or idle, where the
host's next read ends the poll. -/
theorem pollLoopsWhileBusy : Obligations.PollLoopsWhileBusy := by
  refine ⟨fun s => State.target_own (by omega), fun r rest n i hi ht htodo => ⟨hostTurn_poll hi ht htodo, ?_⟩⟩
  intro sched hinv hfair hserved
  obtain ⟨-, -, hsole⟩ := id hfair
  by_contra hnot
  have hstays (m : Nat) : ∃ q, runFor sched m r = .next q ∧ q.todo = r.todo := by
    induction m with
    | zero => exact ⟨r, rfl, rfl⟩
    | succ m ih =>
      obtain ⟨p, hp, hpt⟩ := ih
      obtain ⟨q, hq⟩ | ⟨e, he⟩ := takeTurn_answers (sched m) p
      · refine ⟨q, (runFor_succ hp).trans hq, by_contra fun hne => hnot ?_⟩
        obtain ⟨hrest, s, htrace, hs⟩ := takeTurn_poll_over (hpt.trans htodo) (hpt ▸ hne) hq
        exact ⟨m + 1, .inr ⟨q, p.trace, s, (runFor_succ hp).trans hq, hrest, htrace, hs⟩⟩
      · exact absurd ⟨m + 1, .inl ⟨e, (runFor_succ hp).trans he⟩⟩ hnot
  have htodo_of {m : Nat} {q : HostRun} (hq : runFor sched m r = .next q) : q.todo = r.todo := by
    obtain ⟨q', hq', e⟩ := hstays m
    cases hq.symm.trans hq'
    exact e
  obtain ⟨m, q, hq, hstuck | ⟨hb, p, hp, hpt⟩⟩ :=
    fairRun_settles hinv (State.lt_numInst_of_instAt hi) hfair fun m => (hstays m).imp fun _ h => h.1
  · have hs : q.machine.ServedAt n := by
      refine runFor_induction (P := fun u => u.machine.ServedAt n) (fun hop => hserved ?_) (fun k u v hu hs hv => ?_) hq
      · rwa [State.focus_inst hi] at hop
      · obtain ⟨j, hj, -⟩ := runFor_instAt hi hu
        refine takeTurn_servedAt hs (State.lt_numInst_of_instAt hj) (fun ev => runFor_noWriteTo hsole hu) ?_ hv
        rw [htodo_of hu, htodo_of ((runFor_succ hu).trans hv)]
    obtain ⟨-, hop, -⟩ := id hstuck
    exact (hs hop).not_stuck ((runFor_inv hinv hq).focus n).inst0 hstuck
  · have hqt := (htodo_of hq).trans htodo
    have hrest := hostTurn_poll_todo (runFor_instAt hi hq) ((runFor_target hq _ _).trans ht) hqt hb hp
    exact absurd (hrest.symm.trans (hpt.trans hqt)) (by simp)

/-! ### A whole program -/

theorem hostRun_answers (turns : List Turn) (p : HostRun) :
    (∃ q, hostRun turns p = .next q) ∨ ∃ e, hostRun turns p = .fault e := by
  induction turns generalizing p with
  | nil => exact .inl ⟨p, rfl⟩
  | cons turn turns ih =>
    rw [hostRun]
    obtain ⟨q, h⟩ | ⟨e, h⟩ := takeTurn_answers turn p
    · rw [h]
      exact ih q
    · rw [h]
      exact .inr ⟨e, rfl⟩

theorem poll_not_mem_byteWrites (status a : Nat) (bs : List Byte) : .poll status ∉ byteWrites a bs := by
  induction bs generalizing a with
  | nil => nofun
  | cons b bs ih => simpa [byteWrites] using ih (a + 1)

/-- Every poll of a program reads STATUS of the window it drives. -/
theorem poll_mem_hostOps {base status : Nat} {program : List HostLine} (h : .poll status ∈ hostOps base program) :
    status = base + 0x04 := by
  obtain ⟨line, -, h⟩ := List.mem_flatMap.1 h
  cases line with
  | poll => simpa [HostLine.basic, regOffset] using h
  | mb a bs => exact absurd h (poll_not_mem_byteWrites status a bs)
  | _ => simp [HostLine.basic] at h

/-- The host goes through its operations in order. -/
theorem takeTurn_todo_suffix {turn : Turn} {p q : HostRun} (h : takeTurn turn p = .next q) : q.todo <:+ p.todo := by
  cases turn with
  | other ev =>
    obtain ⟨t, -, rfl⟩ := otherTurn_eq_next h
    exact List.suffix_rfl
  | host =>
    obtain ⟨-, rfl⟩ | ⟨ev, t, -, -, -, ⟨ops, hp, hq⟩ | ⟨status, ops, -, hp, hq⟩⟩ := hostTurn_cases h
    · exact List.suffix_rfl
    · rw [hp, hq]
      exact List.suffix_cons _ ops
    · rw [hq]
      split
      · exact List.suffix_rfl
      · rw [hp]
        exact List.suffix_cons _ ops

/-- A transaction is over at the host's next turn. -/
theorem hostTurn_access_todo {p q : HostRun} {ev : Event} {rest : List HostOp} (htodo : p.todo = .access ev :: rest)
    (h : hostTurn p = .next q) : q.todo = rest := by
  obtain ⟨hp, -⟩ | ⟨_, t, -, -, -, ⟨ops, hp, hq⟩ | ⟨status, ops, -, hp, -⟩⟩ := hostTurn_cases h
  all_goals cases htodo.symm.trans hp
  exact hq

/-- A host that drives an idle instance and stays where it is has nothing left to do. -/
theorem todo_eq_nil_of_stays {p q : HostRun} {n base : Nat} (hi : ∃ i, p.machine.instAt n = some i ∧ i.base = base)
    (ht : p.machine.target (base + 0x04) 4 = some n) (hpolls : ∀ status, .poll status ∈ p.todo → status = base + 0x04)
    (hb : (p.machine.focus n).inst.status.busy = false) (h : hostTurn p = .next q) (hstays : q.todo = p.todo) :
    p.todo = [] := by
  cases hp : p.todo with
  | nil => rfl
  | cons op rest =>
    have hrest : q.todo = rest := by
      cases op with
      | access ev => exact hostTurn_access_todo hp h
      | poll status =>
        obtain rfl := hpolls status (by simp [hp])
        exact hostTurn_poll_todo hi ht hp hb h
    exact absurd (hrest.symm.trans (hstays.trans hp)) (by simp)

/-- A stuck engine is BUSY. -/
theorem HostRun.not_final_of_stuck {n : Nat} {q : HostRun} (h : (q.machine.focus n).Stuck) : ¬ q.Final n := by
  rintro ⟨-, i, hi, hb⟩
  obtain ⟨hbusy, -⟩ := h
  rw [State.focus_inst hi, hb] at hbusy
  cases hbusy

/-- Settles O60: a run without faults settles with the engine stuck, or idle, where only the end of the program lets the host
stay where it is. -/
theorem hostProgramsTransactAndEnd : Obligations.HostProgramsTransactAndEnd := by
  refine ⟨fun base program s turns q h hq => ?_, fun program s n i sched hinv hi ht hfair => ?_,
    fun n f => finalOutcome_fault n f, fun n q h _ => HostRun.not_final_of_stuck h⟩
  · obtain ⟨done, hdone, hdo⟩ := hostRun_transacts h hq
    rw [hdone]
    exact ⟨hdo, hdo.exists_opEvents⟩
  · by_cases hrun : ∀ m, ∃ q, runFor sched m (HostRun.start (hostOps i.base program) s) = .next q
    · obtain ⟨m, q, hq, hstuck | ⟨hb, p, hp, hpt⟩⟩ := fairRun_settles hinv (State.lt_numInst_of_instAt hi) hfair hrun
      · exact ⟨m, .inr (.inl ⟨q, hq, hstuck⟩)⟩
      · have hsuffix : q.todo <:+ hostOps i.base program :=
          runFor_induction (P := fun u => u.todo <:+ hostOps i.base program) List.suffix_rfl
            (fun _ _ _ _ hu hv => (takeTurn_todo_suffix hv).trans hu) hq
        have hpolls (status : Nat) (h : .poll status ∈ q.todo) := poll_mem_hostOps (hsuffix.subset h)
        have hj := runFor_instAt hi hq
        have hdone := todo_eq_nil_of_stays hj ((runFor_target hq _ _).trans ht) hpolls hb hp hpt
        obtain ⟨j, hj, -⟩ := hj
        rw [State.focus_inst hj] at hb
        exact ⟨m, .inr (.inr (hq ▸ ⟨hdone, j, hj, hb⟩))⟩
    · obtain ⟨m, hm⟩ := not_forall.1 hrun
      exact ⟨m, .inl ((hostRun_answers _ _).resolve_left hm)⟩

end Sys2Proof.Machine
end

section
/-! SUPPORT. The proofs of the statements about control (40_control): what a CTRL write does, writes and reads of the other
registers, and which step an engine has. -/

namespace Sys2Proof.Machine

/-! ### Command writes -/

/-- An aligned word access at an offset of instance 0's window, once it has reached the instance. -/
theorem windowAccess_own {s : State} {off : Nat} (f : Nat → State → Result) (h4 : off % 4 = 0) :
    windowAccess (s.inst.base + off) 4 f s = f off s := by
  rw [windowAccess, if_pos (Inst.aligned_own h4), Nat.add_sub_cancel_left]

/-- Settles O5: the write reaches instance `n` at offset 0 of its window, which is CTRL. -/
theorem stepRunsCommandWritten : Obligations.StepRunsCommandWritten := by
  refine fun s w => ⟨fun n i hi ht => ?_, step_ctrlWrite s w⟩
  have e : perform (.busWrite i.base 4 w) s = atInst n (windowAccess i.base 4 fun off => hostWrite off w) s := by
    simp [perform, busAccess, ht]
  rw [step_withEvent, e]
  refine atInst_congr ?_
  rw [← State.focus_inst hi]
  exact windowAccess_own (off := 0) _ rfl

theorem Status.word_accepted : Status.accepted.word = 0x00000001#32 := by decide

theorem Status.word_illegal :
    Status.word { busy := false, done := true, err := .illegalCmd, ign := false } = 0x00000012#32 := by decide

/-- A command word other than NOP, ENCODE and DECODE is ILLEGAL (30_encoding R86, R88). -/
theorem decodeCtrl_illegal {w : Word} (h0 : w ≠ 0x00000000#32) (h1 : w ≠ 0x00000001#32) (h2 : w ≠ 0x00000002#32) :
    decodeCtrl w = .illegalCmd3 ∨ decodeCtrl w = .illegalZ w := by
  rw [decodeCtrl, if_neg h0, if_neg h1, if_neg h2]
  split
  · exact .inl rfl
  · exact .inr rfl

/-- What an ILLEGAL word leaves while BUSY = 0: STATUS is written, the rest is kept (40_control R104). -/
theorem onCommand_acceptIllegal {s : State} (hb : s.inst.status.busy = false) :
    onCommand Inst.acceptIllegal s = .next { s with inst := { s.inst with
      status := { busy := false, done := true, err := .illegalCmd, ign := false } } } := by
  rw [onCommand_idle _ hb, Inst.acceptIllegal, Status.illegal, hb]
  rfl

theorem step_ctrlWrite_illegal {s : State} {w : Word} (hb : s.inst.status.busy = false) (h0 : w ≠ 0x00000000#32)
    (h1 : w ≠ 0x00000001#32) (h2 : w ≠ 0x00000002#32) :
    step (s.withEvent (.busWrite s.inst.base 4 w)) = .next { s with inst := { s.inst with
      status := { busy := false, done := true, err := .illegalCmd, ign := false } } } := by
  rw [step_ctrlWrite]
  obtain e | e := decodeCtrl_illegal h0 h1 h2
  all_goals rw [e]; exact onCommand_acceptIllegal hb

/-- Settles O12: one branch of R100 after the other. -/
theorem commandWriteDispatch : Obligations.CommandWriteDispatch := by
  intro s w
  cases hb : s.inst.status.busy with
  | true => exact (step_hostWrite (off := 0) w (by omega) rfl).trans (hostWrite_busy 0 w hb)
  | false =>
    rw [if_neg Bool.false_ne_true]
    split
    · subst w; exact (step_ctrlWrite s _).trans (onCommand_idle (fun i => i) hb)
    split
    · subst w; exact (step_ctrlWrite s _).trans (onCommand_idle _ hb)
    split
    · subst w; exact (step_ctrlWrite s _).trans (onCommand_idle _ hb)
    · exact step_ctrlWrite_illegal hb ‹_› ‹_› ‹_›

/-- Settles O7: a NOP leaves an idle instance as it is, and is an ignored write to a busy one. -/
theorem nopChangesNothing : Obligations.NopChangesNothing :=
  fun s => ⟨fun hb => ⟨onCommand_idle (fun i => i) hb, (step_ctrlWrite s _).trans (onCommand_idle (fun i => i) hb)⟩,
    onCommand_busy (fun i => i)⟩

/-- Settles O10: both ILLEGAL instructions write STATUS alone, and an idle engine has no step. -/
theorem illegalCompletesAtOnce : Obligations.IllegalCompletesAtOnce := by
  rintro s t w hb rfl
  exact ⟨onCommand_acceptIllegal hb, onCommand_acceptIllegal hb, step_ctrlWrite_illegal hb, Status.word_illegal, rfl⟩

/-! ### Engine turns -/

theorem step_engine (s : State) : step (s.withEvent (.engine 0)) = engineTurn s := atInst_zero engineTurn s

theorem Inst.encoderStep_encIn (i : Inst) : i.encoderStep.encIn = i.encIn := by
  unfold Inst.encoderStep
  split <;> rfl

theorem Inst.encoderStep_done (i : Inst) : i.encoderStep.status.done = true := by
  unfold Inst.encoderStep
  split <;> rfl

/-- A running DECODE has its next instruction, or is stuck (40_control R109, 60_exceptions R177). -/
theorem State.exists_fetch_of_not_stuck {s : State} (hb : s.inst.status.busy = true) (hop : s.inst.op = .dec)
    (hs : ¬ s.Stuck) : ∃ ins, s.fetch = some ins := by
  by_cases hk : s.inst.avail ≤ s.inst.k.val
  · exact ⟨_, fetch_noByte hk⟩
  · have hk := Nat.lt_of_not_le hk
    exact ⟨_, fetch_byte hk (by_contra fun ha => hs ⟨hb, hop, hk, eq_false_of_ne_true ha⟩)⟩

theorem State.Stuck.not_ready {s : State} (h : s.Stuck) : s.engineReady = false := by
  obtain ⟨-, hop, hk, ha⟩ := h
  refine eq_false_of_ne_true fun hr => ?_
  obtain ⟨-, henc | ⟨-, ins, hf⟩⟩ := s.engineReady_iff.1 hr
  · rw [hop] at henc; cases henc
  · rw [fetch_stuck hk ha] at hf; cases hf

/-- Settles O45: one clause for each case of OP, and the two without a step. -/
theorem engineStepByOp : Obligations.EngineStepByOp := by
  intro s
  simp only [step_engine]
  refine ⟨fun hb => ?_, fun hb hop => ?_, fun hb hop hs => ?_, fun hs => ?_⟩
  · exact ⟨by rw [State.engineReady, hb, Bool.false_and], engineTurn_idle hb⟩
  · obtain ⟨-, hidle, hbusy⟩ := s.inst.encoderStep_control
    exact ⟨s.engineReady_iff.2 ⟨hb, .inl hop⟩, _, engineTurn_enc hb hop, hbusy, s.inst.encoderStep_done, hidle⟩
  · obtain ⟨ins, hf⟩ := State.exists_fetch_of_not_stuck hb hop hs
    exact ⟨s.engineReady_iff.2 ⟨hb, .inr ⟨hop, ins, hf⟩⟩, ins, hf, engineTurn_dec hb hop hf⟩
  · exact ⟨hs.not_ready, engineTurn_of_not_ready hs.not_ready⟩

/-! ### Acceptance, up to the engine's step -/

/-- Of a waiting ENCODE no event but a reset changes the operand, and none but the engine's turn ends the wait
(40_control R102). -/
theorem perform_waiting_encode {s t : State} {ev : Event} (hb : s.inst.status.busy = true) (hop : s.inst.op = .enc)
    (hr : ev ≠ .reset 0) (h : perform ev s = .next t) :
    t.inst.encIn = s.inst.encIn ∧ (ev ≠ .engine 0 → t.inst.status.busy = true ∧ t.inst.op = .enc) := by
  by_cases he : ev = .engine 0
  · subst he
    rw [← step_withEvent, step_engine, engineTurn_enc hb hop] at h
    cases h
    exact ⟨s.inst.encoderStep_encIn, fun hne => absurd rfl hne⟩
  · obtain e | e := perform_inst_of_busy hb he hr h
    all_goals rw [e]; exact ⟨rfl, fun _ => ⟨hb, hop⟩⟩

/-- Settles O8: the write is the acceptance, and every event is one of those a waiting ENCODE outlasts or its engine's turn. -/
theorem encodeIsAccepted : Obligations.EncodeIsAccepted := by
  rintro s t hb rfl
  exact ⟨onCommand_idle _ hb, (step_ctrlWrite s _).trans (onCommand_idle _ hb), Status.word_accepted,
    fun _ _ _ => perform_waiting_encode⟩

/-- Settles O9: the write is the acceptance; with nothing between cursor and limit the first engine step is NOBYTE's. -/
theorem decodeIsAccepted : Obligations.DecodeIsAccepted := by
  rintro s t hb ht
  have hacc : .next t = onCommand Inst.acceptDecode s := by rw [ht, onCommand_idle _ hb]; rfl
  refine ⟨hacc.symm, (step_ctrlWrite s _).trans hacc.symm, by rw [ht]; exact Status.word_accepted, fun hlim => ?_⟩
  have hav : t.inst.avail ≤ t.inst.k.val := by
    rw [Inst.avail_eq, ht]
    exact (Nat.sub_eq_zero_of_le hlim).le
  have hbusy : t.inst.status.busy = true := by rw [ht]
  have hop : t.inst.op = .dec := by rw [ht]
  have hstep : engineTurn t = .next (t.setInst (t.inst.failDecode .truncated t.inst.k.val)) :=
    (engineTurn_dec hbusy hop (fetch_noByte hav)).trans (onDecoder_fits _ hop rfl)
  rw [step_engine, hstep, ht]
  rfl

/-! ### Writes while busy -/

/-- What a running DECODE does with a byte does not depend on IGN, and leaves it. -/
theorem Inst.effect_ignoredWrite (pl : Platform) (i : Inst) {ins : Instr} (h : isByteClass ins) :
    i.ignoredWrite.effect pl ins = (i.effect pl ins).ignoredWrite := by
  cases ins with
  | nop | encode | decode | illegalCmd3 | illegalZ w => exact absurd rfl (h _)
  | _ => rfl

theorem Inst.encoderStep_ignoredWrite (i : Inst) : i.ignoredWrite.encoderStep = i.encoderStep.ignoredWrite := by
  cases hv : i.encIn.getLsbD 31 with
  | true => rw [Inst.encoderStep_outOfRange hv, Inst.encoderStep_outOfRange (i := i.ignoredWrite) hv]; rfl
  | false => rw [Inst.encoderStep_ok hv, Inst.encoderStep_ok (i := i.ignoredWrite) hv]; rfl

/-- An ignored write before the engine's turn is one after it (40_control R105). -/
theorem engineTurn_ignoredWrite {s u : State} (h : engineTurn s = .next u) :
    engineTurn (s.setInst s.inst.ignoredWrite) = .next (u.setInst u.inst.ignoredWrite) := by
  cases hr : s.engineReady with
  | false =>
    cases (engineTurn_of_not_ready hr).symm.trans h
    exact engineTurn_of_not_ready hr
  | true =>
    obtain ⟨hb, hop | ⟨hop, ins, hf⟩⟩ := s.engineReady_iff.1 hr
    · cases (engineTurn_enc hb hop).symm.trans h
      refine (engineTurn_enc (s := s.setInst s.inst.ignoredWrite) hb hop).trans ?_
      rw [State.setInst_inst, State.setInst_inst, Inst.encoderStep_ignoredWrite]
      rfl
    · obtain ⟨rfl, -⟩ := exec_eq_next ((engineTurn_dec hb hop hf).symm.trans h)
      obtain ⟨j, hj⟩ := exec_fetched (s := s.setInst s.inst.ignoredWrite) hop hf
      refine (engineTurn_dec (s := s.setInst s.inst.ignoredWrite) hb hop hf).trans (hj.trans ?_)
      rw [(exec_eq_next hj).1, State.setInst_inst, State.setInst_inst, State.setInst_plat,
        Inst.effect_ignoredWrite _ _ (fetch_isByteClass hf)]
      rfl

/-- Settles O11: each write is an ignored one, and the engine's turn commutes with it. -/
theorem writesWhileBusyAreIgnored : Obligations.WritesWhileBusyAreIgnored := by
  rintro s t hb rfl
  refine ⟨fun off w h h4 => (step_hostWrite w h h4).trans (hostWrite_busy off w hb), ?_⟩
  refine ⟨onCommand_busy (fun i => i) hb, onCommand_busy _ hb, onCommand_busy _ hb, onCommand_busy _ hb,
    fun _ => onCommand_busy _ hb, fun u hu => ?_⟩
  rw [step_engine] at hu ⊢
  exact engineTurn_ignoredWrite hu

/-! ### Registers -/

/-- A register other than the reserved one is found at its own offset alone (10_state R21). -/
theorem eq_regOffset_of_regAt {off : Nat} {r : Reg} (h : regAt off = r) (hr : r ≠ .reserved) : off = regOffset r := by
  subst h
  rcases regAt_cases off with
    ⟨rfl, -⟩ | ⟨rfl, -⟩ | ⟨rfl, -⟩ | ⟨rfl, -⟩ | ⟨rfl, -⟩ | ⟨rfl, -⟩ | ⟨rfl, -⟩ | ⟨rfl, -⟩ | ⟨rfl, -⟩ | ⟨rfl, -⟩ | ⟨-, h⟩
  on_goal 11 => exact absurd h hr
  all_goals rfl

/-- The registers that no write changes (40_control R107). -/
theorem Inst.storeReg_readOnly (pl : Platform) (w : Word) (i : Inst) {r : Reg} (h1 : r ≠ .encIn) (h2 : r ≠ .decPos)
    (h3 : r ≠ .decLimit) : i.storeReg pl w r = i := by
  cases r with
  | encIn => exact absurd rfl h1
  | decPos => exact absurd rfl h2
  | decLimit => exact absurd rfl h3
  | _ => rfl

/-- The step of a host write to a register other than CTRL while BUSY = 0 (40_control R107). -/
theorem step_hostWrite_idle {s : State} {off : Nat} (w : Word) (hb : s.inst.status.busy = false) (h : off < 0x100)
    (h4 : off % 4 = 0) (hc : regAt off ≠ .ctrl) :
    step (s.withEvent (.busWrite (s.inst.base + off) 4 w)) =
      .next (s.setInst (s.inst.storeReg s.plat w (regAt off))) := by
  rw [step_hostWrite w h h4, hostWrite, if_neg hc, Inst.writeReg_idle _ _ _ hb]

/-- Settles O13: three registers take the word, and no other offset but 0 holds one that does. -/
theorem registerWritesWhileIdle : Obligations.RegisterWritesWhileIdle := by
  intro s w hb
  refine ⟨step_hostWrite_idle w hb (by omega) rfl nofun, step_hostWrite_idle w hb (by omega) rfl nofun,
    step_hostWrite_idle w hb (by omega) rfl nofun, fun off h h4 hctrl hin hpos hlim => ?_⟩
  rw [step_hostWrite_idle w hb h h4 fun e => hctrl (eq_regOffset_of_regAt e nofun), Inst.storeReg_readOnly]
  · rfl
  · exact fun e => hin (eq_regOffset_of_regAt e nofun)
  · exact fun e => hpos (eq_regOffset_of_regAt e nofun)
  · exact fun e => hlim (eq_regOffset_of_regAt e nofun)

/-- A count as the host reads it: zeros in front of it. -/
theorem setWidth32_count (n : BitVec 3) : n.setWidth 32 = (0#29 ++ n : Word) := BitVec.setWidth_eq_append (by omega)

/-- A value as the host reads it: a zero in front of it. -/
theorem setWidth32_value (v : BitVec 31) : v.setWidth 32 = (0#1 ++ v : Word) := BitVec.setWidth_eq_append (by omega)

/-- What a read returns, by offset, the bits that are not stored written out as zeros (40_control R108). -/
theorem Inst.readReg_regAt (i : Inst) (off : Nat) :
    i.readReg (regAt off) =
      if off = 0x04 then i.status.word
      else if off = 0x08 then i.encIn
      else if off = 0x0C then i.encOut0
      else if off = 0x10 then 0#24 ++ i.encOut1
      else if off = 0x14 then 0#29 ++ i.encLen
      else if off = 0x18 then i.decPos
      else if off = 0x1C then i.decLimit
      else if off = 0x20 then 0#1 ++ i.decValue
      else if off = 0x24 then 0#29 ++ i.decCount
      else 0#32 := by
  by_cases h0 : off = 0x00
  · subst h0; rfl
  · simp only [regAt, if_neg h0, apply_ite i.readReg]
    simp only [Inst.readReg, setWidth32_byte, setWidth32_count, setWidth32_value]

/-- The results that a running command clears read 0 (40_control R102, R103). -/
theorem InstInv.readReg_enc {pl : Platform} {i : Inst} (h : InstInv pl i) (hop : i.op = .enc) :
    i.readReg .encOut0 = 0#32 ∧ i.readReg .encOut1 = 0#32 ∧ i.readReg .encLen = 0#32 := by
  obtain ⟨h0, h1, hl⟩ := h.enc_clear hop
  simp [Inst.readReg, h0, h1, hl]

theorem InstInv.readReg_dec {pl : Platform} {i : Inst} (h : InstInv pl i) (hop : i.op = .dec) :
    i.readReg .decValue = 0#32 ∧ i.readReg .decCount = 0#32 := by
  obtain ⟨hv, hc⟩ := h.dec_clear hop
  simp [Inst.readReg, hv, hc]

/-- Settles O14: the word read is the register's, which the invariant makes 0 where the running command cleared it. -/
theorem registerReads : Obligations.RegisterReads := by
  intro s off h h4
  refine ⟨_, step_hostRead h h4, s.inst.readReg_regAt off, fun hi hop hoff => ?_, fun hi hop hoff => ?_⟩
  · obtain ⟨h0, h1, hl⟩ := hi.readReg_enc hop
    obtain rfl | rfl | rfl := hoff
    · exact h0
    · exact h1
    · exact hl
  · obtain ⟨hv, hc⟩ := hi.readReg_dec hop
    obtain rfl | rfl := hoff
    · exact hv
    · exact hc

end Sys2Proof.Machine
end

section
/-! SUPPORT. The proofs of the statements about the encoder (41_encoder): the bytes of the loop, what they assemble to, and the
engine's step. -/

namespace Sys2Proof.Machine

/-! ### One round of the loop -/

theorem toNat_group (r : BitVec 31) : (r.extractLsb' 0 7).toNat = r.toNat % 128 := by
  rw [BitVec.extractLsb'_toNat, Nat.shiftRight_zero]

theorem toNat_rest (r : BitVec 31) : (r >>> 7).toNat = r.toNat / 128 := by
  rw [BitVec.toNat_ushiftRight, Nat.shiftRight_eq_div_pow]

theorem rest_eq_zero_iff (r : BitVec 31) : r >>> 7 = 0#31 ↔ r.toNat < 128 := by
  rw [← BitVec.toNat_inj, toNat_rest]
  exact Nat.div_eq_zero_iff_lt (by norm_num)

/-- A value below 128 is written in one byte (41_encoder R121). -/
theorem encLoop_small (fuel : Nat) {r : BitVec 31} (h : r.toNat < 128) :
    encLoop (fuel + 1) r = [wireByte 0#1 (r.extractLsb' 0 7)] := by
  rw [encLoop_succ, if_pos ((rest_eq_zero_iff r).2 h)]

/-- The round of a larger value writes its first group and goes on with the rest (41_encoder R121). -/
theorem encLoop_large (fuel : Nat) {r : BitVec 31} (h : 128 ≤ r.toNat) :
    encLoop (fuel + 1) r = wireByte 1#1 (r.extractLsb' 0 7) :: encLoop fuel (r >>> 7) := by
  rw [encLoop_succ, if_neg (by rw [rest_eq_zero_iff]; exact h.not_gt)]

/-- Group `k` of the rest is group `k + 1` of the value. -/
theorem rest_div (r : BitVec 31) (k : Nat) : (r >>> 7).toNat / 2 ^ (7 * k) = r.toNat / 2 ^ (7 * (k + 1)) := by
  rw [toNat_rest, Nat.div_div_eq_div_mul, Nat.mul_succ, Nat.add_comm, Nat.pow_add]

theorem two_pow_le_rest_iff (r : BitVec 31) (k : Nat) : 2 ^ (7 * k) ≤ (r >>> 7).toNat ↔ 2 ^ (7 * (k + 1)) ≤ r.toNat := by
  rw [toNat_rest, Nat.le_div_iff_mul_le (by norm_num), Nat.mul_succ 7 k, Nat.pow_add]

theorem rest_lt_two_pow_iff (r : BitVec 31) (k : Nat) : (r >>> 7).toNat < 2 ^ (7 * k) ↔ r.toNat < 2 ^ (7 * (k + 1)) := by
  simpa using (two_pow_le_rest_iff r k).not

/-! ### The bytes of the loop -/

/-- Byte `n` is written where its group is the first or has a bit at or above it, while rounds last (30_encoding R83). -/
theorem lt_length_encLoop_iff (n fuel : Nat) (r : BitVec 31) :
    n < (encLoop fuel r).length ↔ n < fuel ∧ (n = 0 ∨ 2 ^ (7 * n) ≤ r.toNat) := by
  induction fuel generalizing n r with
  | zero => simp [encLoop]
  | succ fuel ih =>
    obtain h | h := Nat.lt_or_ge r.toNat 128
    · have hlt : n ≠ 0 → r.toNat < 2 ^ (7 * n) := fun hn =>
        h.trans_le (Nat.pow_le_pow_right (n := 2) (i := 7) (by norm_num) (by omega))
      rw [encLoop_small fuel h, List.length_singleton]
      omega
    · rw [encLoop_large fuel h, List.length_cons]
      cases n with
      | zero => simp
      | succ n =>
        have h0 : n = 0 → 2 ^ (7 * (n + 1)) ≤ r.toNat := by
          rintro rfl
          exact h
        rw [Nat.add_lt_add_iff_right, ih, two_pow_le_rest_iff]
        omega

/-- The payload of byte `k` is group `k` of the value (30_encoding R84). -/
theorem payload_encLoop {k fuel : Nat} {r : BitVec 31} {x : Byte} (hx : (encLoop fuel r)[k]? = some x) :
    (payload x).toNat = r.toNat / 2 ^ (7 * k) % 128 := by
  induction fuel generalizing k r with
  | zero => simp [encLoop] at hx
  | succ fuel ih =>
    obtain h | h := Nat.lt_or_ge r.toNat 128
    · rw [encLoop_small fuel h] at hx
      obtain rfl : k = 0 := by simpa using (List.getElem?_eq_some_iff.1 hx).1
      obtain rfl := Option.some.inj hx
      simp
    · rw [encLoop_large fuel h] at hx
      cases k with
      | zero =>
        obtain rfl := Option.some.inj hx
        simp
      | succ k => rw [ih hx, rest_div]

/-- Where the rounds are enough for the value, every byte but the last continues (30_encoding R84). -/
theorem continues_encLoop {k fuel : Nat} {r : BitVec 31} {x : Byte} (hr : r.toNat < 2 ^ (7 * fuel))
    (hx : (encLoop fuel r)[k]? = some x) : continues x = decide (k + 1 < (encLoop fuel r).length) := by
  induction fuel generalizing k r with
  | zero => simp [encLoop] at hx
  | succ fuel ih =>
    obtain h | h := Nat.lt_or_ge r.toNat 128
    · rw [encLoop_small fuel h] at hx ⊢
      obtain rfl : k = 0 := by simpa using (List.getElem?_eq_some_iff.1 hx).1
      obtain rfl := Option.some.inj hx
      simp
    · have hrest := (rest_lt_two_pow_iff r fuel).2 hr
      rw [encLoop_large fuel h] at hx ⊢
      cases k with
      | zero =>
        have hfuel : 0 < fuel := by
          by_contra h0
          obtain rfl : fuel = 0 := by omega
          exact h.not_gt hr
        have hnext := (lt_length_encLoop_iff 0 fuel (r >>> 7)).2 ⟨hfuel, .inl rfl⟩
        obtain rfl := Option.some.inj hx
        simp [hnext]
      | succ k => simpa using ih hrest hx

/-! ### The closed form -/

section Enc

variable {v : BitVec 31} {k : Nat} {x : Byte}

theorem lt_length_enc_iff (n : Nat) (v : BitVec 31) :
    n < (enc v).length ↔ n < 5 ∧ (n = 0 ∨ 2 ^ (7 * n) ≤ v.toNat) := lt_length_encLoop_iff n 5 v

theorem length_enc_pos (v : BitVec 31) : 0 < (enc v).length := (lt_length_enc_iff 0 v).2 (by simp)

theorem length_enc_le (v : BitVec 31) : (enc v).length ≤ 5 := encLoop_length_le 5 v

theorem payload_enc (hx : (enc v)[k]? = some x) : (payload x).toNat = v.toNat / 2 ^ (7 * k) % 128 :=
  payload_encLoop hx

/-- Five rounds are enough for 31 bits. -/
theorem continues_enc (hx : (enc v)[k]? = some x) : continues x = decide (k + 1 < (enc v).length) :=
  continues_encLoop (v.isLt.trans (by norm_num)) hx

/-- The length class counts the groups of 7 bits (30_encoding R83). -/
theorem lt_encLength_iff (n : Nat) (v : BitVec 31) :
    n < encLength v ↔ n < 5 ∧ (n = 0 ∨ 2 ^ (7 * n) ≤ v.toNat) := by
  have hv := v.isLt
  obtain hn | rfl | rfl | rfl | rfl | rfl : 5 ≤ n ∨ n = 0 ∨ n = 1 ∨ n = 2 ∨ n = 3 ∨ n = 4 := by omega
  all_goals
    norm_num [encLength]
    split_ifs <;> omega

theorem length_enc (v : BitVec 31) : (enc v).length = encLength v :=
  eq_of_forall_lt_iff fun n => by rw [lt_length_enc_iff, lt_encLength_iff]

/-! ### The properties of the encoded form -/

/-- What the payloads of a byte sequence assemble to, the first group lowest (30_encoding R85). -/
def payloadValue : List Byte → Nat
  | [] => 0
  | x :: xs => (payload x).toNat + 128 * payloadValue xs

/-- The loop's bytes assemble to its value, where the rounds are enough for it. -/
theorem payloadValue_encLoop {fuel : Nat} {r : BitVec 31} (hr : r.toNat < 2 ^ (7 * fuel)) :
    payloadValue (encLoop fuel r) = r.toNat := by
  induction fuel generalizing r with
  | zero => exact (Nat.lt_one_iff.1 hr).symm
  | succ fuel ih =>
    obtain h | h := Nat.lt_or_ge r.toNat 128
    · rw [encLoop_small fuel h]
      simp [payloadValue, Nat.mod_eq_of_lt h]
    · have hrest := (rest_lt_two_pow_iff r fuel).2 hr
      rw [encLoop_large fuel h, payloadValue, ih hrest, payload_wireByte, toNat_group, toNat_rest]
      exact Nat.mod_add_div _ _

theorem payloadValue_enc (v : BitVec 31) : payloadValue (enc v) = v.toNat :=
  payloadValue_encLoop (v.isLt.trans (by norm_num))

theorem enc_injective {u v : BitVec 31} (h : enc u = enc v) : u = v :=
  BitVec.eq_of_toNat_eq (by rw [← payloadValue_enc u, h, payloadValue_enc v])

/-- A fifth byte is what is left of 31 bits above four groups (41_encoder R123). -/
theorem fifth_byte_enc (hx : (enc v)[4]? = some x) : x.toNat = v.toNat / 2 ^ 28 ∧ x.toNat ≤ 7 := by
  have hv := v.isLt
  have hlen := length_enc_le v
  have hend : continues x = false := (continues_enc hx).trans (decide_eq_false (by omega))
  have hp := payload_enc hx
  rw [← wireByte_zero_toNat, wireByte_payload_of_not_continues hend] at hp
  omega

/-- No group past the last byte has a bit (30_encoding R83). -/
theorem lt_two_pow_length_enc (v : BitVec 31) : v.toNat < 2 ^ (7 * (enc v).length) := by
  obtain h5 | hlt := (length_enc_le v).eq_or_lt
  · rw [h5]
    exact v.isLt.trans (by norm_num)
  · have hend := (lt_length_enc_iff (enc v).length v).not.1 (lt_irrefl _)
    omega

/-- The last of several bytes is one whose group has a bit (41_encoder R123). -/
theorem payload_last_enc (h : 1 < (enc v).length) (hx : (enc v)[(enc v).length - 1]? = some x) :
    (payload x).toNat ≠ 0 := by
  obtain ⟨n, hn⟩ : ∃ n, (enc v).length = n + 1 := ⟨_, (Nat.sub_add_cancel h.le).symm⟩
  obtain ⟨-, hpos⟩ := (lt_length_enc_iff n v).1 (by omega)
  have hlt : v.toNat / 2 ^ (7 * n) < 128 := by
    have hv := lt_two_pow_length_enc v
    rw [hn, Nat.mul_succ, Nat.pow_add, Nat.mul_comm] at hv
    exact (Nat.div_lt_iff_lt_mul (by positivity)).2 hv
  rw [hn, Nat.add_sub_cancel] at hx
  rw [payload_enc hx, Nat.mod_eq_of_lt hlt]
  exact (Nat.div_pos (hpos.resolve_left (by omega)) (by positivity)).ne'

end Enc

/-- Settles O23: byte `k` is its payload and its continuation bit. -/
theorem encoderClosedForm : Obligations.EncoderClosedForm := by
  intro v
  rw [← length_enc]
  refine ⟨rfl, fun k hk => ?_⟩
  have hx := List.getElem?_eq_getElem hk
  rw [hx, byte_eq (enc v)[k], payload_enc hx, continues_enc hx]
  simp [Nat.lt_sub_iff_add_lt]

/-- Settles O24: bounds, continuation bits, the fifth byte, the last byte, and the value that the bytes assemble to. -/
theorem encodedFormProperties : Obligations.EncodedFormProperties := by
  intro v
  refine ⟨⟨length_enc_pos v, length_enc_le v⟩, fun k b => continues_enc, fun b _ => fifth_byte_enc, ?_, fun u => enc_injective⟩
  rintro b h hb rfl
  exact payload_last_enc h hb rfl

/-! ### Decoding the encoded form -/

theorem assembled_eq_payloadValue (b : Memory) (pos n : Nat) : assembled b pos n = payloadValue (b.bytes pos n) := by
  induction n generalizing pos with
  | zero => rfl
  | succ n ih => rw [assembled_succ_eq_first, Memory.bytes_succ, payloadValue, ih]

/-- A buffer that holds a sequence byte by byte holds it as a whole. -/
theorem Memory.bytes_eq_of_holds {b : Memory} {pos : Nat} {xs : List Byte}
    (h : ∀ (j : Nat) (x : Byte), xs[j]? = some x → b.read (pos + j) = x) : b.bytes pos xs.length = xs := by
  refine List.ext_getElem (b.length_bytes pos _) fun j hj hx => ?_
  simpa [Memory.bytes] using h j xs[j] (List.getElem?_eq_getElem hx)

/-- What the encoder writes is a sequence the decoder accepts, for the value it came from (30_encoding R82). -/
theorem acceptedFrom_enc {v : BitVec 31} {b : Memory} {pos avail : Nat} (hav : (enc v).length ≤ avail)
    (hb : ∀ (j : Nat) (x : Byte), (enc v)[j]? = some x → b.read (pos + j) = x) :
    AcceptedFrom b pos avail 0 (enc v).length v := by
  have hpos := length_enc_pos v
  have hread {j : Nat} (hj : j < (enc v).length) : (enc v)[j]? = some (b.read (pos + j)) := by
    have hx := List.getElem?_eq_getElem hj
    rw [hx, hb j _ hx]
  exact
    { lt_count := hpos
      count_le := length_enc_le v
      count_le_avail := hav
      goes_on := fun j _ hj => (continues_enc (hread (by omega))).trans (decide_eq_true hj)
      ends := (continues_enc (hread (by omega))).trans (decide_eq_false (by omega))
      fifth_le := fun h5 => by
        have hv := v.isLt
        have hp := payload_enc (hread (j := 4) (by omega))
        omega
      value := by rw [assembled_eq_payloadValue, Memory.bytes_eq_of_holds hb, payloadValue_enc] }

/-- Settles O25: the bytes are those of an accepted sequence. -/
theorem decodeInvertsEncode : Obligations.DecodeInvertsEncode :=
  fun _ _ _ _ hav hb => dec_eq_ok_iff.2 (acceptedFrom_enc hav hb)

/-! ### The engine's step -/

/-- Settles O22: the two sides of bit 31, what acceptance cleared, and the rule's examples. -/
theorem encoderEngineStep : Obligations.EncoderEngineStep := by
  intro s hb hop
  have hv : s.inst.encIn.extractLsb' 0 31 = s.inst.encIn.setWidth 31 := (BitVec.setWidth_eq_extractLsb' (by omega)).symm
  rw [step_engine, engineTurn_enc hb hop, hv]
  refine ⟨fun h => ?_, fun hi => hi.enc_clear hop, fun h => ?_, by decide, by decide, by decide, by decide, by decide⟩
  · rw [Inst.encoderStep_outOfRange h]
    rfl
  · rw [Inst.encoderStep_ok h]
    rfl

end Sys2Proof.Machine
end

section
/-! SUPPORT. A DECODE as a whole (42_decoder R141, R151): the engine's steps from acceptance on are the rounds of dec. The round
trip on the machine (41_encoder R124) is dec on the encoder's bytes. -/

namespace Sys2Proof.Machine

/-! ### Completion -/

/-- A failure leaves what a decode that failed leaves, where DEC_VALUE was cleared and IGN is 0. -/
theorem Inst.failDecode_eq_afterDecode {i : Inst} {o : DecodeOutcome} (hv : i.decValue = 0#31) (hign : i.status.ign = false)
    (hval : o.value = 0#31) (hadv : o.advance = 0) : i.failDecode o.kind o.count = i.afterDecode o := by
  simp [Inst.failDecode, Inst.complete, Inst.afterDecode, Status.finished, hign, hval, hadv, hv]

/-- A success leaves what a decode that ended OK leaves, the cursor not wrapping. -/
theorem State.succeedDecode_eq_afterDecode {s : State} (p : BitVec 7) (hi : InstInv s.plat s.inst)
    (hk : s.inst.k.val < s.inst.avail) (hign : s.inst.status.ign = false) :
    s.inst.succeedDecode s.plat p =
      s.inst.afterDecode (.ok ((s.inst.accWith p).setWidth 31) (s.inst.k.val + 1)) := by
  simp [Inst.succeedDecode, State.truncAw_advance hi.limit_lt hk, Inst.complete, Inst.afterDecode, Status.finished, hign,
    DecodeOutcome.kind, DecodeOutcome.value, DecodeOutcome.count, DecodeOutcome.advance]

/-! ### A round of dec on the machine -/

/-- The rounds of dec that instance 0 has left, `fuel` of them. -/
def State.roundsLeft (s : State) (fuel : Nat) : DecodeOutcome :=
  decLoop s.buf s.inst.decPos.toNat s.inst.avail fuel s.inst.k.val s.inst.acc

theorem State.roundsLeft_noByte {s : State} (fuel : Nat) (hk : s.inst.avail ≤ s.inst.k.val) :
    s.roundsLeft (fuel + 1) = .truncated s.inst.k.val := by rw [State.roundsLeft, decLoop_succ, if_pos hk]

/-- What the engine's turn leaves in the instance is the effect of the class it fetches. -/
theorem engineTurn_fetched {s : State} {ins : Instr} (hb : s.inst.status.busy = true) (hop : s.inst.op = .dec)
    (hf : s.fetch = some ins) : engineTurn s = .next (s.setInst (s.inst.effect s.plat ins)) := by
  obtain ⟨j, hj⟩ := exec_fetched hop hf
  rw [engineTurn_dec hb hop hf, hj, (exec_eq_next hj).1]

/-- The address of a byte that remains is the plain sum, and in a served buffer its class is fetched. -/
theorem State.Served.fetch {s : State} (h : s.Served) (hi : InstInv s.plat s.inst) (hk : s.inst.k.val < s.inst.avail) :
    s.fetch = some (decodeByte s.inst.k (s.buf.read (s.inst.decPos.toNat + s.inst.k.val))) := by
  have haddr := State.byteAddr_eq hi.limit_lt hk
  have ha := h _ (Nat.le_add_right _ _) (s.inst.lt_avail_iff.1 hk)
  rw [fetch_byte hk (haddr ▸ ha), haddr]

/-- One turn of the engine is one round of dec: it reads on and leaves the other rounds, or it completes with what the rounds
end in. -/
theorem engineTurn_round {s : State} {fuel : Nat} (hi : InstInv s.plat s.inst) (hserved : s.Served)
    (hop : s.inst.op = .dec) (hign : s.inst.status.ign = false) (hf : s.inst.k.val + (fuel + 1) = 5) :
    (∃ p, s.inst.k.val < 4 ∧ s.inst.k.val < s.inst.avail ∧
      engineTurn s = .next (s.setInst (s.inst.continueWith p)) ∧
      s.roundsLeft (fuel + 1) = (s.setInst (s.inst.continueWith p)).roundsLeft fuel) ∨
    ((s.roundsLeft (fuel + 1)).steps = s.inst.k.val + 1 ∧
      engineTurn s = .next (s.setInst (s.inst.afterDecode (s.roundsLeft (fuel + 1))))) := by
  have hb := hi.busy_iff.2 (by simp [hop])
  obtain ⟨hv, -⟩ := hi.dec_clear hop
  by_cases hk : s.inst.avail ≤ s.inst.k.val
  · rw [State.roundsLeft_noByte fuel hk, engineTurn_fetched hb hop (fetch_noByte hk),
      ← Inst.failDecode_eq_afterDecode hv hign rfl rfl]
    exact .inr ⟨rfl, rfl⟩
  have hr : s.roundsLeft (fuel + 1) = _ := (decLoop_succ _ _ _ _ _ _).trans (if_neg hk)
  replace hk := Nat.lt_of_not_le hk
  have hturn := engineTurn_fetched hb hop (hserved.fetch hi hk)
  obtain ⟨hlt, hc, e⟩ | ⟨hlt, hc, e⟩ | ⟨h4, hc, e⟩ | ⟨h4, hc, hp, e⟩ | ⟨h4, hc, hp, e⟩ :=
    decodeByte_cases s.inst.k (s.buf.read (s.inst.decPos.toNat + s.inst.k.val))
  all_goals rw [e] at hturn; rw [hc] at hr
  · refine .inl ⟨_, hlt, hk, hturn, hr.trans ?_⟩
    rw [State.roundsLeft, State.setInst_inst, Inst.continueWith_k_val _ hlt]
    rfl
  · rw [if_neg Bool.false_ne_true, if_neg (by omega)] at hr
    rw [hr, hturn, Inst.effect, State.succeedDecode_eq_afterDecode _ hi hk hign]
    exact .inr ⟨rfl, rfl⟩
  · obtain rfl : fuel = 0 := by omega
    replace hr : s.roundsLeft 1 = .malformed 5 := hr.trans (if_pos rfl)
    rw [hr, hturn, ← Inst.failDecode_eq_afterDecode hv hign rfl rfl]
    exact .inr ⟨congrArg (· + 1) h4.symm, rfl⟩
  · rw [if_neg Bool.false_ne_true, if_pos ⟨h4, hp⟩] at hr
    rw [hr, hturn, ← Inst.failDecode_eq_afterDecode hv hign rfl rfl]
    exact .inr ⟨congrArg (· + 1) h4.symm, rfl⟩
  · rw [if_neg Bool.false_ne_true, if_neg fun h => hp h.2] at hr
    rw [hr, hturn, Inst.effect, payload_eq_low _ hp, State.succeedDecode_eq_afterDecode _ hi hk hign]
    exact .inr ⟨rfl, rfl⟩

/-! ### The rounds together -/

theorem count_le_steps (o : DecodeOutcome) : o.count ≤ o.steps := by
  cases o with
  | truncated c => exact Nat.le_succ c
  | ok _ c | malformed c | outOfRange c => exact le_rfl

/-- Every round that is left takes a step. -/
theorem State.lt_steps_roundsLeft {s : State} {fuel : Nat} (hf : s.inst.k.val + (fuel + 1) = 5) :
    s.inst.k.val < (s.roundsLeft (fuel + 1)).steps := by
  by_cases hk : s.inst.avail ≤ s.inst.k.val
  · rw [State.roundsLeft_noByte fuel hk]
    exact Nat.lt_succ_self _
  · exact (lt_count_decLoop_succ _ _ hf.le (Nat.lt_of_not_le hk)).trans_le (count_le_steps _)

/-- From index K on, the engine's turns are the rounds of dec that are left, one turn for each. -/
theorem run_roundsLeft {s : State} {fuel n : Nat} (hi : InstInv s.plat s.inst) (hserved : s.Served)
    (hop : s.inst.op = .dec) (hign : s.inst.status.ign = false) (hf : s.inst.k.val + fuel = 5)
    (hn : (s.roundsLeft fuel).steps = s.inst.k.val + n) :
    Host.Core.run Sys2Proof.core n (s.withTurns n) = .next (s.setInst (s.inst.afterDecode (s.roundsLeft fuel))) := by
  induction fuel generalizing s n with
  | zero =>
    have := s.inst.k.isLt
    omega
  | succ fuel ih =>
    have hlt := State.lt_steps_roundsLeft hf
    obtain ⟨n, rfl⟩ : ∃ m, n = m + 1 := ⟨n - 1, by omega⟩
    obtain ⟨p, hk4, hk, hturn, hr⟩ | ⟨hsteps, hturn⟩ := engineTurn_round (s := s.withTurns n) hi hserved hop hign hf
    · have hkv := Inst.continueWith_k_val (i := s.inst) p hk4
      replace hr : s.roundsLeft (fuel + 1) = (s.setInst (s.inst.continueWith p)).roundsLeft fuel := hr
      rw [core_run_turn hturn, hr]
      rw [hr] at hn
      exact ih (s := s.setInst (s.inst.continueWith p)) (hi.continueWith p hop hk4 hk) hserved hop hign
        (by rw [State.setInst_inst, hkv]; omega) (by rw [State.setInst_inst, hkv]; omega)
    · replace hsteps : (s.roundsLeft (fuel + 1)).steps = s.inst.k.val + 1 := hsteps
      obtain rfl : n = 0 := by omega
      exact core_run_turn hturn

/-- A DECODE of an idle instance with a served buffer does what dec says, in as many engine steps (42_decoder R141, R151). -/
theorem run_decode {s : State} (hinv : Inv s) (hb : s.inst.status.busy = false) (hserved : s.Served) :
    Host.Core.run Sys2Proof.core (1 + s.decodeOutcome.steps)
        ((s.withTurns s.decodeOutcome.steps).withEvent (.busWrite s.inst.base 4 0x00000002#32)) =
      .next (s.setInst (s.inst.afterDecode s.decodeOutcome)) := by
  have hacc (n : Nat) : step ((s.withTurns n).withEvent (.busWrite s.inst.base 4 0x00000002#32)) =
      .next ((s.setInst s.inst.acceptDecode).withTurns n) :=
    (step_ctrlWrite (s.withTurns n) _).trans (onCommand_idle _ hb)
  rw [Nat.add_comm, core_run_succ (hacc _)]
  exact run_roundsLeft (s := s.setInst s.inst.acceptDecode) (fuel := 5) hinv.inst0.acceptDecode hserved rfl rfl rfl
    (Nat.zero_add _).symm

theorem Status.word_ok : Status.word { busy := false, done := true, err := .ok, ign := false } = 0x00000002#32 := by
  decide

/-- Settles O26: the run is dec on the encoder's bytes, and five bytes at most fit DEC_COUNT and the buffer. -/
theorem roundTripOnTheMachine : Obligations.RoundTripOnTheMachine := by
  intro s v hinv hb hserved hav hbuf
  have hok : s.decodeOutcome = .ok v (enc v).length := decodeInvertsEncode v _ _ _ hav hbuf
  have hrun := run_decode hinv hb hserved
  rw [hok] at hrun
  have hlen := length_enc_le v
  have hlim := s.inst.decLimit.isLt
  rw [Inst.avail_eq] at hav
  refine ⟨_, hrun, Status.word_ok, rfl, Nat.mod_eq_of_lt (hlen.trans_lt (by norm_num)), ?_, rfl, rfl⟩
  show (s.inst.decPos + BitVec.ofNat 32 (enc v).length).toNat = _
  rw [BitVec.toNat_add, BitVec.toNat_ofNat]
  omega

end Sys2Proof.Machine
end

section
/-! SUPPORT. The proofs of the statements about the decoder (42_decoder): how the pure decoder ends, its rounds on the machine,
and what a turn of the engine does. -/

namespace Sys2Proof.Machine

/-! ### How the pure decoder ends -/

/-- The bytes at indices `k` to `n - 1` all continue. -/
def Memory.goesOn (b : Memory) (pos k n : Nat) : Prop := ∀ j, k ≤ j → j < n → continues (b.read (pos + j)) = true

theorem Memory.goesOn_of_succ {b : Memory} {pos k n : Nat} (hc : continues (b.read (pos + k)) = true)
    (h : b.goesOn pos (k + 1) n) : b.goesOn pos k n := by
  intro j hj hn
  obtain rfl | hj := hj.eq_or_lt
  · exact hc
  · exact h j hj hn

/-- All ways the rounds of the pure decoder end, having read on from index `k` to index `n` (42_decoder R144). -/
inductive EndsAt (b : Memory) (pos avail k n : Nat) : DecodeOutcome → Prop where
  /-- No byte remains. -/
  | truncated : b.goesOn pos k n → n ≤ 4 → n = avail → EndsAt b pos avail k n (.truncated n)
  /-- All five bytes continue. -/
  | malformed : b.goesOn pos k n → n = 5 → n ≤ avail → EndsAt b pos avail k n (.malformed 5)
  /-- The fifth byte ends with a payload above 7. -/
  | outOfRange : b.goesOn pos k n → n = 4 → n < avail → continues (b.read (pos + n)) = false →
      7 < (payload (b.read (pos + n))).toNat → EndsAt b pos avail k n (.outOfRange 5)
  /-- A terminating byte. -/
  | ok (v : BitVec 31) : b.goesOn pos k n → n ≤ 4 → n < avail → continues (b.read (pos + n)) = false →
      EndsAt b pos avail k n (.ok v (n + 1))

theorem EndsAt.of_succ {b : Memory} {pos avail k n : Nat} {o : DecodeOutcome} (hc : continues (b.read (pos + k)) = true)
    (h : EndsAt b pos avail (k + 1) n o) : EndsAt b pos avail k n o := by
  cases h with
  | truncated hon hn hav => exact .truncated (Memory.goesOn_of_succ hc hon) hn hav
  | malformed hon hn hav => exact .malformed (Memory.goesOn_of_succ hc hon) hn hav
  | outOfRange hon hn hav hend hp => exact .outOfRange (Memory.goesOn_of_succ hc hon) hn hav hend hp
  | ok v hon hn hav hend => exact .ok v (Memory.goesOn_of_succ hc hon) hn hav hend

/-- The rounds from `k` on, the bytes before it having been there, end in one of these ways. -/
theorem decLoop_endsAt {b : Memory} {pos avail fuel k : Nat} (acc : BitVec 35) (hf : k + fuel = 5) (hk : k ≤ avail) :
    ∃ n, EndsAt b pos avail k n (decLoop b pos avail fuel k acc) := by
  induction fuel generalizing k acc with
  | zero =>
    obtain rfl : k = 5 := hf
    exact ⟨5, .malformed (fun j hj hn => absurd hn hj.not_gt) rfl hk⟩
  | succ fuel ih =>
    have hnil : b.goesOn pos k k := fun j hj hn => absurd hn hj.not_gt
    rw [decLoop_succ]
    by_cases hav : avail ≤ k
    · rw [if_pos hav]
      exact ⟨k, .truncated hnil (by omega) (hk.antisymm hav)⟩
    rw [if_neg hav]
    replace hav := Nat.lt_of_not_le hav
    cases hc : continues (b.read (pos + k)) with
    | true =>
      obtain ⟨n, h⟩ := ih (acc ||| ((payload (b.read (pos + k))).setWidth 35 <<< (7 * k))) (by omega) hav
      exact ⟨n, h.of_succ hc⟩
    | false =>
      rw [if_neg Bool.false_ne_true]
      split
      · rename_i hbig
        exact ⟨k, .outOfRange hnil hbig.1 hav hc hbig.2⟩
      · exact ⟨k, .ok _ hnil (by omega) hav hc⟩

theorem dec_endsAt (b : Memory) (pos avail : Nat) : ∃ n, EndsAt b pos avail 0 n (dec b pos avail) :=
  decLoop_endsAt 0#35 rfl (Nat.zero_le avail)

/-- Settles O35: each way of ending has its count. -/
theorem decodeStepCounts : Obligations.DecodeStepCounts := by
  intro b pos avail
  obtain ⟨n, h⟩ := dec_endsAt b pos avail
  generalize dec b pos avail = o at h
  cases h with
  | truncated _ hn hav =>
    exact ⟨⟨n.succ_pos, Nat.succ_le_succ hn⟩, nofun, fun c hc => by cases hc; exact ⟨hav, hn⟩, nofun, nofun⟩
  | malformed _ hn hav => exact ⟨by decide, nofun, nofun, fun c hc => by cases hc; exact ⟨rfl, hn ▸ hav⟩, nofun⟩
  | outOfRange _ hn hav => exact ⟨by decide, nofun, nofun, nofun, fun c hc => by cases hc; exact ⟨rfl, by omega⟩⟩
  | ok v _ hn hav =>
    replace hn := Nat.succ_le_succ hn
    exact ⟨⟨n.succ_pos, hn⟩, fun w c hc => by cases hc; exact ⟨n.succ_pos, hn, hav⟩, nofun, nofun, nofun⟩

/-- Five bytes that continue leave no other way to end. -/
theorem dec_eq_malformed {b : Memory} {pos avail : Nat} (hav : 5 ≤ avail) (hon : b.goesOn pos 0 5) :
    dec b pos avail = .malformed 5 := by
  obtain ⟨n, h⟩ := dec_endsAt b pos avail
  generalize dec b pos avail = o at h ⊢
  cases h with
  | malformed => rfl
  | truncated _ hn hn' => omega
  | outOfRange _ hn _ hend => exact absurd (hon n n.zero_le (by omega)) (ne_true_of_eq_false hend)
  | ok _ _ hn _ hend => exact absurd (hon n n.zero_le (by omega)) (ne_true_of_eq_false hend)

/-- Up to four bytes that continue, with no more available, leave no other way to end. -/
theorem dec_eq_truncated {b : Memory} {pos avail : Nat} (hav : avail ≤ 4) (hon : b.goesOn pos 0 avail) :
    dec b pos avail = .truncated avail := by
  obtain ⟨n, h⟩ := dec_endsAt b pos avail
  generalize dec b pos avail = o at h ⊢
  cases h with
  | malformed _ hn hn' => omega
  | truncated _ _ hn => rw [hn]
  | outOfRange _ _ hn hend => exact absurd (hon n n.zero_le hn) (ne_true_of_eq_false hend)
  | ok _ _ _ hn hend => exact absurd (hon n n.zero_le hn) (ne_true_of_eq_false hend)

/-- Settles O36: the order of the checks, and MALFORMED read back from the way it ends. -/
theorem checkOrder : Obligations.CheckOrder := by
  intro b pos avail
  refine ⟨fun hav hon => dec_eq_malformed hav fun j _ => hon j,
    fun hav hon => dec_eq_truncated hav fun j _ => hon j, fun c hc => ?_⟩
  obtain ⟨n, h⟩ := dec_endsAt b pos avail
  rw [hc] at h
  cases h with
  | malformed hon hn hav =>
    subst hn
    exact ⟨rfl, hav, fun j => hon j j.zero_le⟩

/-- A terminating byte ends the sequence of the bytes before it, whatever their payloads (42_decoder R148). -/
theorem dec_eq_ok {b : Memory} {pos avail k : Nat} {v : BitVec 31} (hk : k ≤ 4) (hav : k < avail)
    (hon : ∀ j, j < k → continues (b.read (pos + j)) = true) (hend : continues (b.read (pos + k)) = false)
    (hp : k = 4 → (payload (b.read (pos + k))).toNat ≤ 7) (hv : v.toNat = assembled b pos (k + 1)) :
    dec b pos avail = .ok v (k + 1) :=
  dec_eq_ok_iff.2
    { lt_count := k.succ_pos
      count_le := Nat.succ_le_succ hk
      count_le_avail := hav
      goes_on := fun j _ hj => hon j (Nat.lt_of_succ_lt_succ hj)
      ends := hend
      fifth_le := fun h5 => by
        obtain rfl : k = 4 := Nat.succ.inj h5
        exact hp rfl
      value := hv }

/-- Settles O37: the rule at every index, and its three examples evaluated on the bytes they name. -/
theorem terminatingByteDecodes : Obligations.TerminatingByteDecodes := by
  refine ⟨fun b pos avail k hk hav hon hend hp => ?_, fun b => ⟨fun h0 h1 => ?_, fun h0 h1 h2 h3 h4 => ?_, fun h0 h1 => ?_⟩⟩
  · exact ⟨.ofNatLT _ (assembled_succ_lt hk hp), dec_eq_ok hk hav hon hend hp rfl, rfl⟩
  · simp [dec, decLoop_succ, continues, payload, h0, h1]
  · simp [dec, decLoop_succ, continues, payload, h0, h1, h2, h3, h4]
  · simp [dec, decLoop_succ, continues, payload, h0, h1]

/-! ### A DECODE on the machine -/

/-- Settles O33: the accepted DECODE's turns are the rounds of dec, from the first on. -/
theorem engineRefinesPureDecoder : Obligations.EngineRefinesPureDecoder :=
  fun _ => run_decode

/-- The CTRL write of DECODE is accepted, whatever turns of the engine follow. -/
theorem step_acceptDecode {s : State} (n : Nat) (hb : s.inst.status.busy = false) :
    step ((s.withTurns n).withEvent (.busWrite s.inst.base 4 0x00000002#32)) =
      .next ((s.setInst s.inst.acceptDecode).withTurns n) :=
  (step_ctrlWrite (s.withTurns n) _).trans (onCommand_idle _ hb)

/-- Until the rounds of dec that are left are over, each turn of the engine reads one byte on. -/
theorem run_reads_on {s : State} {fuel n : Nat} (hi : InstInv s.plat s.inst) (hserved : s.Served)
    (hop : s.inst.op = .dec) (hign : s.inst.status.ign = false) (hf : s.inst.k.val + fuel = 5)
    (hn : s.inst.k.val + n < (s.roundsLeft fuel).steps) :
    ∃ t, Host.Core.run Sys2Proof.core n (s.withTurns n) = .next t ∧
      t.inst.status.busy = true ∧ t.inst.op = .dec ∧ t.inst.k.val = s.inst.k.val + n ∧ t.input = s.input := by
  induction n generalizing s fuel with
  | zero => exact ⟨s, rfl, hi.busy_iff.2 (by simp [hop]), hop, rfl, rfl⟩
  | succ n ih =>
    obtain ⟨fuel, rfl⟩ : ∃ m, fuel = m + 1 := ⟨fuel - 1, by have := s.inst.k.isLt; omega⟩
    obtain ⟨p, hk4, hk, hturn, hr⟩ | ⟨hsteps, -⟩ := engineTurn_round (s := s.withTurns n) hi hserved hop hign hf
    · have hkv := Inst.continueWith_k_val (i := s.inst) p hk4
      replace hr : s.roundsLeft (fuel + 1) = (s.setInst (s.inst.continueWith p)).roundsLeft fuel := hr
      obtain ⟨t, ht, hb, hop', hkt, hin⟩ := ih (s := s.setInst (s.inst.continueWith p)) (fuel := fuel)
        (hi.continueWith p hop hk4 hk) hserved hop hign (by rw [State.setInst_inst, hkv]; omega)
        (by rw [State.setInst_inst, hkv, ← hr]; omega)
      refine ⟨t, (core_run_turn hturn).trans ht, hb, hop', ?_, hin⟩
      rw [hkt, State.setInst_inst, hkv]
      omega
    · replace hsteps : (s.roundsLeft (fuel + 1)).steps = s.inst.k.val + 1 := hsteps
      omega

/-- Settles O34: after acceptance, at index 0, all the rounds of dec are left. -/
theorem busyUntilTheLastStep : Obligations.BusyUntilTheLastStep := by
  intro s n hinv hb hserved hn
  obtain ⟨t, ht, hbusy, hop, hk, hin⟩ := run_reads_on (s := s.setInst s.inst.acceptDecode) (fuel := 5) (n := n)
    hinv.inst0.acceptDecode hserved rfl rfl rfl ((Nat.zero_add n).trans_lt hn)
  refine ⟨t, ?_, hbusy, hop, hk.trans (Nat.zero_add n), hin⟩
  rw [Nat.add_comm, core_run_succ (step_acceptDecode n hb), ht]

/-! ### What a meaning answers -/

/-- Settles O54: a byte class that answers ran where the engine has that step. -/
theorem whereExecStops : Obligations.WhereExecStops := by
  intro i s
  obtain ⟨j, e⟩ | ⟨hbyte, hplace, e⟩ := exec_cases i s
  · refine ⟨iff_of_false (by rw [e]; nofun) fun ⟨hbyte, hplace⟩ => ?_, fun _ => ⟨_, e⟩⟩
    obtain ⟨hop, hk⟩ := (exec_eq_next e).2 hbyte
    exact hplace.elim (absurd hop) (absurd hk <| ne_true_of_eq_false ·)
  · exact ⟨iff_of_true e ⟨hbyte, hplace⟩, absurd e⟩

/-- What DEC_VALUE drops of the accumulator is 0 where ACC is below 2^31. -/
theorem Inst.succeedDecode_decValue_toNat (pl : Platform) {i : Inst} {p : BitVec 7} (h : (i.accWith p).toNat < 2 ^ 31) :
    (i.succeedDecode pl p).decValue.toNat = (i.accWith p).toNat := by
  rw [Inst.succeedDecode_decValue, BitVec.toNat_setWidth, Nat.mod_eq_of_lt h]

/-- Four payloads at most fill 28 bits. -/
theorem Inst.accWith_lt_of_early {i : Inst} (p : BitVec 7) (ha : i.acc.toNat < 2 ^ (7 * i.k.val)) (hk : i.k.val < 4) :
    (i.accWith p).toNat < 2 ^ 28 :=
  (Inst.accWith_lt p ha).trans_le (Nat.pow_le_pow_right (by norm_num) (by omega))

/-- What is shifted in for TERM5's payload. -/
theorem Inst.accWith_low {i : Inst} (p : BitVec 3) (hk : i.k.val = 4) :
    i.accWith (p.setWidth 7) = i.acc ||| ((0#32 ++ p) <<< 28) := by
  rw [Inst.accWith, hk, setWidth35_low]

/-- The fifth payload has three bits. -/
theorem Inst.accWith_low_lt {i : Inst} (p : BitVec 3) (ha : i.acc.toNat < 2 ^ (7 * i.k.val)) (hk : i.k.val = 4) :
    (i.accWith (p.setWidth 7)).toNat < 2 ^ 31 := by
  have hp := p.isLt
  have hsum : (i.accWith (p.setWidth 7)).toNat = _ := or_shift_toNat i.acc (p.setWidth 7) ha hk.le
  rw [hsum, BitVec.toNat_setWidth, hk]
  rw [hk] at ha
  omega

/-- Settles O40: with the payload in it the accumulator has 28 bits, or 31 at the last index. -/
theorem valueLosesNothing : Obligations.ValueLosesNothing := by
  intro s t i hi h
  obtain ⟨rfl, hd⟩ := exec_eq_next h
  constructor
  · rintro p rfl
    obtain ⟨hop, hk⟩ := hd nofun
    have hlt := Inst.accWith_lt_of_early p (hi.acc_lt hop) (of_decide_eq_true hk)
    have hv := Inst.succeedDecode_decValue_toNat s.plat (hlt.trans (by norm_num))
    rw [← Inst.accWith_eq]
    exact ⟨hv, hv.trans_lt hlt⟩
  · rintro p rfl
    obtain ⟨hop, hk⟩ := hd nofun
    have hk : s.inst.k.val = 4 := of_decide_eq_true hk
    have hlt := Inst.accWith_low_lt p (hi.acc_lt hop) hk
    have hv := Inst.succeedDecode_decValue_toNat s.plat hlt
    rw [← Inst.accWith_low p hk]
    exact ⟨hv, hv.trans_lt hlt⟩

/-! ### What a turn of the engine does -/

/-- Settles O6: the turn of instance `n` runs the class of what it fetches. -/
theorem stepRunsByteClassRead : Obligations.StepRunsByteClassRead := by
  rintro s _ n - rfl hb hop
  refine ⟨fun hk => ?_, fun hk ha => ?_, ?_⟩
  · exact atInst_congr (engineTurn_dec hb hop (fetch_noByte hk))
  · refine atInst_congr ((engineTurn_dec hb hop (fetch_byte hk ?_)).trans ?_)
    · rw [State.byteAddr, State.focus_plat]
      exact ha
    · rw [State.byteAddr, State.focus_plat, State.focus_buf]
      rfl
  · rintro rfl i
    exact atInst_zero _ s

theorem Inst.encoderStep_decPos (i : Inst) : i.encoderStep.decPos = i.decPos := by
  unfold Inst.encoderStep
  split <;> rfl

/-- Where a class other than NOBYTE is fetched, a byte remains. -/
theorem lt_avail_of_fetch {s : State} {ins : Instr} (h : s.fetch = some ins) (hne : ins ≠ .noByte) :
    s.inst.k.val < s.inst.avail := by
  by_contra hk
  rw [fetch_noByte (Nat.le_of_not_lt hk)] at h
  exact hne (Option.some.inj h).symm

/-- A success moves the cursor by DEC_COUNT: at most five bytes, all of which remained (10_state R40). -/
theorem State.succeedDecode_decPos_toNat {s : State} (p : BitVec 7) (hi : InstInv s.plat s.inst)
    (hk : s.inst.k.val < s.inst.avail) :
    (s.inst.succeedDecode s.plat p).decPos.toNat =
      s.inst.decPos.toNat + (s.inst.succeedDecode s.plat p).decCount.toNat := by
  have hk5 := s.inst.k.isLt
  rw [Inst.succeedDecode_decPos, Inst.succeedDecode_decCount, State.truncAw_advance hi.limit_lt hk, State.advance_toNat hk,
    BitVec.toNat_ofNat]
  omega

/-- Settles O41: of the fetched classes only TERM and TERM5 complete with OK. -/
theorem cursorMovesOnlyOnSuccess : Obligations.CursorMovesOnlyOnSuccess := by
  intro s t hinv hb h
  have hi := hinv.inst0
  have hdone := (hi.busy_clear hb).1
  rw [step_engine] at h
  obtain e | ⟨-, hop, e⟩ | ⟨-, hop, ins, j, hf, e, -⟩ := engineTurn_cases s
  · cases e.symm.trans h
    rw [if_neg (by simp [hdone])]
    rfl
  · cases e.symm.trans h
    rw [if_neg (by simp [hop]), State.setInst_inst, Inst.encoderStep_decPos]
    rfl
  · have hbyte := fetch_isByteClass hf
    rw [exec_inst (e.symm.trans h)]
    cases ins with
    | nop | encode | decode | illegalCmd3 | illegalZ w => exact absurd rfl (hbyte _)
    | cont p => simp [Inst.effect, hdone]
    | term p | term5 p =>
      rw [if_pos ⟨hop, rfl, rfl⟩]
      exact State.succeedDecode_decPos_toNat _ hi (lt_avail_of_fetch hf nofun)
    | cont5 p | ovr5 p | noByte => simp [Inst.effect]

/-- The continuation bit and the payload are the byte's fields (30_encoding R81). -/
theorem byte_fields (b : Byte) : b.getLsbD 7 = continues b ∧ b.extractLsb' 0 7 = payload b := ⟨rfl, rfl⟩

/-- A success, register by register, the cursor not wrapping (42_decoder R143). -/
theorem State.succeedDecode_eq {s : State} (p : BitVec 7) (hi : InstInv s.plat s.inst) (hk : s.inst.k.val < s.inst.avail) :
    s.inst.succeedDecode s.plat p =
      { s.inst with
        decValue := (s.inst.accWith p).extractLsb' 0 31
        decCount := BitVec.ofNat 3 (s.inst.k.val + 1)
        decPos := s.inst.decPos + BitVec.ofNat 32 (s.inst.k.val + 1)
        status := { busy := false, done := true, err := .ok, ign := s.inst.status.ign }
        op := .idle, k := 0, acc := 0#35 } := by
  rw [Inst.succeedDecode, State.truncAw_advance hi.limit_lt hk, setWidth31_eq_extractLsb']
  rfl

/-- Settles O32: each class the engine can fetch takes its branch. -/
theorem decoderEngineStep : Obligations.DecoderEngineStep := by
  rintro s b acc' hinv hop rfl rfl
  have hi := hinv.inst0
  have hb := hi.busy_iff.2 (by simp [hop])
  have turn {ins : Instr} {j : Inst} (hf : s.fetch = some ins) (hj : j = s.inst.effect s.plat ins) :
      engineTurn s = .next { s with inst := j } := hj ▸ engineTurn_fetched hb hop hf
  simp only [step_engine]
  refine ⟨fun hadm => ?_, fun hadm hk => ?_, (hi.dec_clear hop).1⟩
  · by_cases hlim : s.inst.decLimit.toNat ≤ s.inst.decPos.toNat + s.inst.k.val
    · refine turn (fetch_noByte ?_) (if_pos hlim)
      rw [Inst.avail_eq]
      omega
    have hk := (Inst.lt_avail_iff s.inst).2 (Nat.lt_of_not_le hlim)
    have haddr := State.byteAddr_eq hi.limit_lt hk
    refine turn (fetch_byte hk (haddr ▸ hadm.resolve_right hlim)) ((if_neg hlim).trans ?_)
    rw [haddr]
    generalize s.buf.read (s.inst.decPos.toNat + s.inst.k.val) = b
    obtain ⟨hlt, hc, e⟩ | ⟨hlt, hc, e⟩ | ⟨h4, hc, e⟩ | ⟨h4, hc, hp, e⟩ | ⟨h4, hc, hp, e⟩ := decodeByte_cases s.inst.k b
    all_goals rw [e, (byte_fields b).1, (byte_fields b).2, hc]
    · rw [if_pos ⟨rfl, hlt⟩, ← Inst.accWith_eq]
      rfl
    · rw [if_neg nofun, if_neg nofun, if_neg (by omega), ← Inst.accWith_eq]
      exact (State.succeedDecode_eq _ hi hk).symm
    · rw [if_neg (by omega), if_pos rfl]
      rfl
    · rw [if_neg nofun, if_neg nofun, if_pos ⟨h4, hp⟩]
      rfl
    · rw [if_neg nofun, if_neg nofun, if_neg (by omega), ← Inst.accWith_eq, ← payload_eq_low b hp]
      exact (State.succeedDecode_eq _ hi hk).symm
  · have hk := (Inst.lt_avail_iff s.inst).2 hk
    exact engineTurn_stuck hop (fetch_stuck hk (by rw [State.byteAddr_eq hi.limit_lt hk]; exact hadm))

/-! ### A second DECODE with more bytes -/

/-- What every step keeps, a run keeps. -/
theorem run_keeps (M : Host.Core) {P : M.State → Prop} (hstep : ∀ s t, P s → M.step s = .next t → P t) :
    ∀ {n : Nat} {s t : M.State}, P s → M.run n s = .next t → P t
  | 0, s, t, h, ht => by cases ht; exact h
  | n + 1, s, t, h, ht => by
    simp only [Host.Core.run] at ht
    split at ht
    · exact run_keeps M hstep (hstep _ _ h ‹_›) ht
    · cases ht
    · cases ht

/-- Where no instance decodes, a host write of BUF inside the space takes effect (20_memory R73). -/
theorem step_bufWrite_free {s : State} {a : Nat} (b : Byte) (hfree : ∀ i ∈ s.insts, i.op ≠ .dec) (ha : a < bufSize s.plat) :
    step (s.withEvent (.bufWrite a b)) = .next { s with buf := s.buf.write a b } :=
  hostBufWrite_free b ha fun i hi hop => absurd hop (hfree i hi)

/-- BUF after the host's `writes`, the first of them first. -/
def Memory.writeAll (m : Memory) (writes : List (Nat × Byte)) : Memory := writes.foldl (fun b c => b.write c.1 c.2) m

theorem Memory.writeAll_cons (m : Memory) (c : Nat × Byte) (writes : List (Nat × Byte)) :
    m.writeAll (c :: writes) = (m.write c.1 c.2).writeAll writes := rfl

/-- The host's writes of BUF, as events. -/
def bufWriteEvents (writes : List (Nat × Byte)) : List Event := writes.map fun c => .bufWrite c.1 c.2

theorem run_bufWrites {s : State} {writes : List (Nat × Byte)} {rest : List Event} (hfree : ∀ i ∈ s.insts, i.op ≠ .dec)
    (hw : ∀ c ∈ writes, c.1 < bufSize s.plat) :
    Host.Core.run core writes.length { s with input := bufWriteEvents writes ++ rest } =
      .next { s with buf := s.buf.writeAll writes, input := rest } := by
  induction writes generalizing s with
  | nil => rfl
  | cons c writes ih =>
    obtain ⟨hc, hw⟩ := List.forall_mem_cons.1 hw
    exact (core_run_succ (step_bufWrite_free (s := { s with input := bufWriteEvents writes ++ rest }) c.2 hfree hc)).trans
      (ih (s := { s with buf := s.buf.write c.1 c.2 }) hfree hw)

/-- Writes at `lo` and above leave the bytes below. -/
theorem Memory.read_writeAll_of_lt {writes : List (Nat × Byte)} {m : Memory} {lo a : Nat} (hw : ∀ c ∈ writes, lo ≤ c.1)
    (ha : a < lo) : (m.writeAll writes).read a = m.read a := by
  induction writes generalizing m with
  | nil => rfl
  | cons c writes ih =>
    obtain ⟨hc, hw⟩ := List.forall_mem_cons.1 hw
    rw [Memory.writeAll_cons, ih hw, Memory.read_write_other m c.2 (by omega)]

theorem truncAw_of_lt {pl : Platform} {w : Word} (h : w.toNat < bufSize pl) : truncAw pl w = w := by
  rw [truncAw, Nat.mod_eq_of_lt h, BitVec.ofNat_toNat, BitVec.setWidth_eq]

/-- An idle instance takes a limit that is an address (40_control R107). -/
theorem step_limitWrite {s : State} {limit : Word} (hb : s.inst.status.busy = false) (hlim : limit.toNat < bufSize s.plat) :
    step (s.withEvent (.busWrite (s.inst.base + 0x1C) 4 limit)) =
      .next (s.setInst { s.inst with decLimit := limit }) := by
  rw [step_hostWrite_idle (off := 0x1C) limit hb (by omega) rfl nofun, show regAt 0x1C = .decLimit from rfl, Inst.storeReg,
    truncAw_of_lt hlim]

/-- The machine once the host has written more bytes and a new limit. -/
def State.extend (s : State) (writes : List (Nat × Byte)) (limit : Word) : State :=
  { s with buf := s.buf.writeAll writes, inst := { s.inst with decLimit := limit } }

/-- With no instance decoding, host writes of BUF and of DEC_LIMIT to an idle instance 0 all take effect. -/
theorem run_extend {s : State} {writes : List (Nat × Byte)} {limit : Word} {rest : List Event}
    (hfree : ∀ i ∈ s.insts, i.op ≠ .dec) (hb : s.inst.status.busy = false) (hw : ∀ c ∈ writes, c.1 < bufSize s.plat)
    (hlim : limit.toNat < bufSize s.plat) :
    Host.Core.run core (writes.length + 1)
        { s with input := bufWriteEvents writes ++ .busWrite (s.inst.base + 0x1C) 4 limit :: rest } =
      .next { s.extend writes limit with input := rest } :=
  (run_add core 1 (run_bufWrites hfree hw)).trans
    (core_run_succ (step_limitWrite (s := { s with buf := s.buf.writeAll writes, input := rest }) hb hlim))

/-- With more bytes and a new limit, a DECODE of an idle instance 0 is dec of the extended buffer (42_decoder R141, R147). -/
theorem run_extend_decode {s : State} {writes : List (Nat × Byte)} {limit : Word} {o : DecodeOutcome} (hinv : Inv s)
    (hfree : ∀ i ∈ s.insts, i.op ≠ .dec) (hb : s.inst.status.busy = false) (hw : ∀ c ∈ writes, c.1 < bufSize s.plat)
    (hlim : limit.toNat < bufSize s.plat) (hserved : (s.extend writes limit).Served)
    (ho : o = (s.extend writes limit).decodeOutcome) :
    Host.Core.run core ((writes.length + 1) + (1 + o.steps))
        { s with input :=
            bufWriteEvents writes ++ .busWrite (s.inst.base + 0x1C) 4 limit ::
              .busWrite s.inst.base 4 0x00000002#32 :: (List.replicate o.steps (.engine 0) ++ s.input) } =
      .next ((s.extend writes limit).setInst ((s.extend writes limit).inst.afterDecode o)) := by
  subst ho
  have hextend {rest : List Event} := run_extend (rest := rest) hfree hb hw hlim
  have hinv' : Inv (s.extend writes limit) :=
    (run_keeps core stepKeepsInvariant (hinv.withInput _) (hextend (rest := []))).withInput s.input
  exact (run_add core _ hextend).trans (run_decode hinv' hb hserved)

theorem DecodeOutcome.advance_of_truncated {o : DecodeOutcome} (h : o.kind = .truncated) : o.advance = 0 := by
  cases o with
  | truncated c => rfl
  | ok v c | malformed c | outOfRange c => cases h

/-- DEC_POS after a decode that did not advance is what it was (42_decoder R146). -/
theorem Inst.afterDecode_decPos_of_advance {o : DecodeOutcome} (i : Inst) (h : o.advance = 0) :
    (i.afterDecode o).decPos = i.decPos := by
  rw [Inst.afterDecode, h]
  exact BitVec.add_zero _

/-- A decode after one that did not advance leaves what it would have left in its place. -/
theorem Inst.afterDecode_afterDecode {o : DecodeOutcome} (i : Inst) (limit : Word) (o' : DecodeOutcome) (h : o.advance = 0) :
    Inst.afterDecode o' { i.afterDecode o with decLimit := limit } = Inst.afterDecode o' { i with decLimit := limit } := by
  rw [Inst.afterDecode, i.afterDecode_decPos_of_advance h]
  rfl

/-- Settles O58: the first DECODE leaves an idle instance with the same cursor, from which the rest is one DECODE of the extended
buffer. -/
theorem retryAfterTruncated : Obligations.RetryAfterTruncated := by
  rintro s writes limit m o hinv hb hserved hkind hpeers hw hlim hlt hadm rfl ho
  refine ⟨fun a ha => Memory.read_writeAll_of_lt (fun c hc => (hw c hc).1) ha, ?_⟩
  have hadv := DecodeOutcome.advance_of_truncated hkind
  have hpos := s.inst.afterDecode_decPos_of_advance hadv
  have hfirst (evs : List Event) :
      Host.Core.run core (1 + s.decodeOutcome.steps)
          { s with input :=
              (.busWrite s.inst.base 4 0x00000002#32 :: List.replicate s.decodeOutcome.steps (.engine 0)) ++ evs } =
        .next { s with inst := s.inst.afterDecode s.decodeOutcome, input := evs } :=
    run_decode (s := { s with input := evs }) (hinv.withInput evs) hb hserved
  have hinv' : Inv (s.setInst (s.inst.afterDecode s.decodeOutcome)) :=
    run_keeps core stepKeepsInvariant (hinv.withInput _) (hfirst s.input)
  have hsecond := run_extend_decode (o := o) hinv' (List.forall_mem_cons.2 ⟨nofun, hpeers⟩) rfl (fun c hc => (hw c hc).2) hlt
    (by rw [State.Served, State.extend, State.setInst_inst, hpos]; exact hadm)
    (by rw [ho, State.decodeOutcome, Inst.avail_eq, State.extend, State.setInst_inst, hpos]; rfl)
  rw [← Nat.add_assoc writes.length 1]
  refine (run_add core _ (hfirst _)).trans (hsecond.trans ?_)
  rw [State.setInst, State.extend, State.setInst_inst, Inst.afterDecode_afterDecode s.inst limit o hadv]
  rfl

end Sys2Proof.Machine
end

section
/-! SUPPORT. The proofs of the statements about exceptions and several instances (60_exceptions): a failed DECODE issued again, a
stuck engine, what stops the machine, and one instance among several. -/

namespace Sys2Proof.Machine

/-! ### A failed DECODE, issued again -/

/-- Only an OK moves the cursor (42_decoder R146). -/
theorem DecodeOutcome.advance_of_failed {o : DecodeOutcome} (h : o.kind ≠ .ok) : o.advance = 0 := by
  cases o with
  | ok v c => exact absurd rfl h
  | truncated c | malformed c | outOfRange c => rfl

/-- A decode that did not advance leaves the same buffer to decode. -/
theorem State.decodeOutcome_setInst_afterDecode (s : State) {o : DecodeOutcome} (h : o.advance = 0) :
    (s.setInst (s.inst.afterDecode o)).decodeOutcome = s.decodeOutcome := by
  have hpos := s.inst.afterDecode_decPos_of_advance h
  rw [State.decodeOutcome, State.decodeOutcome, Inst.avail_eq, Inst.avail_eq, State.setInst_inst, hpos]
  rfl

/-- Settles O44: the first DECODE leaves an idle instance with the same cursor and limit, from which the second is the same
decode, written over its own results. -/
theorem failedDecodeRepeats : Obligations.FailedDecodeRepeats := by
  intro s t hinv hb hserved hkind h
  have hadv := DecodeOutcome.advance_of_failed hkind
  have hfirst := run_decode hinv hb hserved
  obtain rfl : s.setInst (s.inst.afterDecode s.decodeOutcome) = t :=
    Host.Outcome.next.inj (hfirst.symm.trans h)
  have hsame := s.decodeOutcome_setInst_afterDecode hadv
  have hserved' : (s.setInst (s.inst.afterDecode s.decodeOutcome)).Served :=
    hserved.congr rfl (s.inst.afterDecode_decPos_of_advance hadv) rfl
  have hsecond := run_decode (run_keeps core stepKeepsInvariant (hinv.withInput _) hfirst) rfl hserved'
  have hagain : (s.inst.afterDecode s.decodeOutcome).afterDecode s.decodeOutcome = s.inst.afterDecode s.decodeOutcome :=
    s.inst.afterDecode_afterDecode s.inst.decLimit s.decodeOutcome hadv
  rw [hsame, State.setInst_inst, hagain] at hsecond
  exact ⟨hsame, hsecond⟩

/-! ### A stuck engine -/

/-- Being stuck depends on the platform and on the instance, but not on its IGN. -/
theorem State.Stuck.congr {s t : State} {g : Bool} (h : s.Stuck) (hplat : t.plat = s.plat)
    (hinst : t.inst = { s.inst with status := { s.inst.status with ign := g } }) : t.Stuck := by
  unfold State.Stuck State.byteAddr
  rw [hplat, hinst]
  exact h

/-- Settles O46: its own turn is no step, and every other event leaves the instance all but IGN. -/
theorem stuckUntilReset : Obligations.StuckUntilReset := by
  intro s hinv hs
  have ⟨hb, hop, hk, ha⟩ := hs
  refine ⟨hs.not_ready, s.inst.status.word_fields.1.trans hb, fun ev t hr h => ?_,
    _, (resetClearsTheInstance s).1, rfl, rfl⟩
  by_cases he : ev = .engine 0
  · subst he
    rw [step_engine, engineTurn_stuck hop (fetch_stuck hk ha)] at h
    cases h
    exact ⟨hs, rfl, rfl, rfl⟩
  · obtain ⟨⟨g, hg⟩, -⟩ := eventsDoNotDisturbDecode s t ev hinv hop he hr h
    refine ⟨hs.congr (perform_plat h) hg, ?_⟩
    rw [hg]
    exact ⟨rfl, rfl, rfl⟩

/-! ### What stops the machine -/

theorem idleTurn_answers (s : State) : ∃ t, idleTurn s = .next t := by
  obtain ⟨n, j, -, -, -, h⟩ | ⟨-, h⟩ := idleTurn_cases s
  · exact ⟨_, h⟩
  · exact ⟨_, h⟩

/-- Without an event there is no fault, and no step is refused. -/
theorem step_answers (s : State) :
    (∃ t, step s = .next t) ∨
      ∃ ev rest e, s.input = ev :: rest ∧ step s = .fault e ∧ perform ev { s with input := rest } = .fault e := by
  cases hi : s.input with
  | nil =>
    rw [step_idle hi]
    exact .inl (idleTurn_answers s)
  | cons ev rest =>
    rw [step_event hi]
    obtain h | ⟨e, h⟩ := perform_answers ev { s with input := rest }
    · exact .inl h
    · exact .inr ⟨ev, rest, e, rfl, h, h⟩

/-- Why an event faults, in plain arithmetic (60_exceptions R176). -/
theorem perform_eq_fault {ev : Event} {s : State} {r : Fault} (h : perform ev s = .fault r) :
    (r = .badBusAccess ∧ ∃ a z : Nat, ((∃ w, ev = .busWrite a z w) ∨ ev = .busRead a z) ∧
        ∃ i ∈ s.insts, (0 < z ∧ a < i.base + 0x100 ∧ i.base < a + z) ∧
          ¬ (z = 4 ∧ i.base ≤ a ∧ (a - i.base) % 4 = 0)) ∨
      (r = .bufWriteInUse ∧ ∃ (a : Nat) (b : Byte), ev = .bufWrite a b ∧ a < bufSize s.plat ∧
        ∃ i ∈ s.insts, i.op = .dec ∧ i.decPos.toNat ≤ a ∧ a < i.decLimit.toNat) ∨
      (r = .noSuchBufAddress ∧ ∃ a : Nat, ((∃ b, ev = .bufWrite a b) ∨ ev = .bufRead a) ∧ bufSize s.plat ≤ a) := by
  obtain ⟨n, j, -, -, e⟩ | ⟨v, -, e⟩ | ⟨a, b, -, -, -, e⟩ | e | ⟨q, e, hq⟩ := perform_cases ev s
  all_goals rw [e] at h; cases h
  simpa only [← Bool.not_eq_true, Inst.touched_iff, Inst.aligned_iff, List.any_eq_true, Inst.usesAddr_iff] using hq

/-- Settles O55: only an event can fault, for one of its three reasons. -/
theorem onlyHostViolationsStop : Obligations.OnlyHostViolationsStop := by
  intro s
  obtain ⟨t, ht⟩ | ⟨ev, rest, e, hi, he, hp⟩ := step_answers s
  · rw [ht]
    exact ⟨nofun, nofun⟩
  · rw [he]
    refine ⟨nofun, fun r hr => ?_⟩
    cases hr
    exact ⟨ev, rest, hi, perform_eq_fault (s := { s with input := rest }) hp⟩

/-! ### One instance among several -/

/-- An event that carries something out on an instance is one that acts on it. -/
theorem ActsOn.eventInst {s : State} {n : Nat} {ev : Event} {f : State → Result} (h : ActsOn s n ev f) :
    s.eventInst ev = some n := by
  cases h with
  | engine => rfl
  | reset => rfl
  | write off ht => exact ht

/-- No event adds or removes an instance, or puts another event before those that wait. -/
theorem perform_numInst_input {ev : Event} {s t : State} (h : perform ev s = .next t) :
    t.numInst = s.numInst ∧ t.input = s.input := by
  obtain ⟨n, j, -, -, rfl⟩ | ⟨a, b, -, rfl⟩ | ⟨v, rfl⟩ := perform_eq_next h
  · rw [State.focus_numInst, State.focus_input]
    exact ⟨s.focus_numInst n, s.focus_input n⟩
  · exact ⟨rfl, rfl⟩
  · exact ⟨rfl, rfl⟩

/-- Settles O51: where an event changes an instance, it acts on that instance. -/
theorem instancesAreIsolated : Obligations.InstancesAreIsolated := by
  refine fun s t ev h => ⟨fun n hn => ?_, perform_plat h, perform_numInst_input h⟩
  obtain e | ⟨f, j, ha, -⟩ := perform_instAt h n
  · exact e
  · exact absurd ha.eventInst hn

/-- An aligned word access at an offset of the window of instance `n`, if it reaches that window, is carried out there. -/
theorem busAccess_instAt {s : State} {n off : Nat} {i : Inst} (f : Nat → State → Result) (hi : s.instAt n = some i)
    (h4 : off % 4 = 0) (ht : s.target (i.base + off) 4 = some n) :
    busAccess (i.base + off) 4 f s = atInst n (f off) s := by
  simp only [busAccess, ht]
  refine atInst_congr ?_
  rw [← State.focus_inst hi]
  exact windowAccess_own f h4

/-- What `atInst n` leaves for an operation that writes the instance in place and what the host read. -/
theorem atInst_frame {s : State} {n : Nat} {g : State → Result} {j : Inst} {v : Word} (hn : n < s.numInst)
    (hg : g (s.focus n) = .next { s.focus n with inst := j, rdata := v }) :
    ∃ t : State, atInst n g s = .next t ∧ t.instAt n = some j ∧ t.rdata = v ∧
      (∀ m : Nat, m ≠ n → t.instAt m = s.instAt m) ∧
      t.numInst = s.numInst ∧ t.plat = s.plat ∧ t.buf = s.buf ∧ t.input = s.input := by
  have e : atInst n g s = .next { ((s.focus n).setInst j).focus n with rdata := v } := by
    rw [atInst, if_pos hn, hg, ← State.focus_withRdata]
    rfl
  have hinst (m : Nat) := State.instAt_focus_setInst (m := m) j hn
  refine ⟨_, e, (hinst n).trans (if_pos rfl), rfl, fun m hm => (hinst m).trans (if_neg hm), ?_, ?_, ?_, ?_⟩
  · exact (State.focus_numInst n _).trans (State.focus_numInst n s)
  · exact (State.focus_plat n _).trans (State.focus_plat n s)
  · exact (State.focus_buf n _).trans (State.focus_buf n s)
  · exact (State.focus_input n _).trans (State.focus_input n s)

/-- Settles O57: an event of instance `n` is `atInst n` of what the same event of instance 0 carries out in place. -/
theorem everyInstanceActsAlike : Obligations.EveryInstanceActsAlike := by
  refine fun s n => ⟨atInst_congr (step_engine _).symm, atInst_congr (atInst_zero resetInst _).symm, fun i hi => ?_⟩
  refine ⟨State.focus_inst hi, s.focus_buf n, s.focus_plat n, fun off w hoff h4 ht => ⟨?_, ?_⟩,
    fun g j v => atInst_frame (State.lt_numInst_of_instAt hi)⟩
  · exact (busAccess_instAt _ hi h4 ht).trans (atInst_congr (step_hostWrite w hoff h4).symm)
  · exact (busAccess_instAt _ hi h4 ht).trans (atInst_congr (step_hostRead hoff h4).symm)

end Sys2Proof.Machine
end

section
/-! SUPPORT. The proofs of the statements about hazards (70_reset): which engine moves where no event waits, and the registers
that ENCODE and DECODE leave to each other. -/

namespace Sys2Proof.Machine

/-- Settles O47: an idle machine's step is the turn of the first engine that has one, or nothing where none has. -/
theorem waitingEnginesRun : Obligations.WaitingEnginesRun := by
  intro s hin
  rw [step_idle hin]
  obtain ⟨n, j, hn, hr, hj, e⟩ | ⟨hnone, e⟩ := idleTurn_cases s
  · have hturn : idleTurn s = atInst n engineTurn s := e.trans (atInst_setInst hn hj).symm
    exact ⟨fun _ => ⟨n, hn, hr, hturn⟩, fun hall => absurd hr (ne_true_of_eq_false (hall n hn))⟩
  · exact ⟨fun ⟨n, hn, hr⟩ => absurd hr (ne_true_of_eq_false (hnone n hn)), fun _ => e⟩

/-! ### Registers of the decoder, and of the encoder -/

/-- The encoder's step leaves the decoder's registers (41_encoder R122). -/
theorem Inst.encoderStep_decoder (i : Inst) :
    i.encoderStep.decPos = i.decPos ∧ i.encoderStep.decLimit = i.decLimit ∧
      i.encoderStep.decValue = i.decValue ∧ i.encoderStep.decCount = i.decCount := by
  cases hv : i.encIn.getLsbD 31 with
  | true => rw [Inst.encoderStep_outOfRange hv]; exact ⟨rfl, rfl, rfl, rfl⟩
  | false => rw [Inst.encoderStep_ok hv]; exact ⟨rfl, rfl, rfl, rfl⟩

/-- Of the commands only DECODE writes a register of the decoder (10_state R32-R35). -/
theorem exec_command_decoder {ins : Instr} {s t : State} (h : exec ins s = .next t) (hc : ¬ isByteClass ins)
    (hne : ins ≠ .decode) :
    t.inst.decPos = s.inst.decPos ∧ t.inst.decLimit = s.inst.decLimit ∧
      t.inst.decValue = s.inst.decValue ∧ t.inst.decCount = s.inst.decCount := by
  obtain ⟨hvalue, hcount, -, -⟩ := s.inst.effect_decoder_of_command s.plat hc hne
  rw [exec_inst h]
  refine ⟨s.inst.effect_decPos s.plat ?_ ?_, s.inst.effect_decLimit s.plat ins, hvalue, hcount⟩
  all_goals rintro p rfl; exact hc nofun

/-- Of the instructions only ENCODE writes a register of the encoder (10_state R28-R31). -/
theorem exec_encoder {ins : Instr} {s t : State} (h : exec ins s = .next t) (hne : ins ≠ .encode) :
    t.inst.encIn = s.inst.encIn ∧ t.inst.encOut0 = s.inst.encOut0 ∧
      t.inst.encOut1 = s.inst.encOut1 ∧ t.inst.encLen = s.inst.encLen := by
  rw [exec_inst h]
  exact ⟨s.inst.effect_encIn s.plat ins, s.inst.effect_encOut s.plat hne⟩

/-- An engine running ENCODE leaves the decoder's registers. -/
theorem engineTurn_enc_decoder {s t : State} (hop : s.inst.op = .enc) (h : engineTurn s = .next t) :
    t.inst.decPos = s.inst.decPos ∧ t.inst.decLimit = s.inst.decLimit ∧
      t.inst.decValue = s.inst.decValue ∧ t.inst.decCount = s.inst.decCount := by
  obtain e | ⟨-, -, e⟩ | ⟨-, hdec, -⟩ := engineTurn_cases s
  · cases e.symm.trans h
    exact ⟨rfl, rfl, rfl, rfl⟩
  · cases e.symm.trans h
    exact s.inst.encoderStep_decoder
  · rw [hop] at hdec
    cases hdec

/-- An engine running DECODE leaves the encoder's registers: no class it fetches is a command. -/
theorem engineTurn_dec_encoder {s t : State} (hop : s.inst.op = .dec) (h : engineTurn s = .next t) :
    t.inst.encIn = s.inst.encIn ∧ t.inst.encOut0 = s.inst.encOut0 ∧
      t.inst.encOut1 = s.inst.encOut1 ∧ t.inst.encLen = s.inst.encLen := by
  obtain e | ⟨-, henc, -⟩ | ⟨-, -, ins, j, hf, e, -⟩ := engineTurn_cases s
  · cases e.symm.trans h
    exact ⟨rfl, rfl, rfl, rfl⟩
  · rw [hop] at henc
    cases henc
  · have hne : ins ≠ .encode := by
      rintro rfl
      exact fetch_isByteClass hf _ rfl
    exact exec_encoder (e.symm.trans h) hne

/-- Settles O52: for each side, the acceptance is a command's meaning and the engine step is that side's turn. -/
theorem encoderAndDecoderShareNoData : Obligations.EncoderAndDecoderShareNoData := by
  intro s t
  rw [step_engine]
  refine ⟨?_, ?_⟩
  · rintro (h | ⟨h, hop⟩)
    · exact exec_command_decoder h (fun hb => hb _ rfl) nofun
    · exact engineTurn_enc_decoder hop h
  · rintro (h | ⟨h, hop⟩)
    · exact exec_encoder h nofun
    · exact engineTurn_dec_encoder hop h

end Sys2Proof.Machine
end
